-- ==== Sys2Proof/Word.lean ====
section
/-! DEFINITION. The word types of the engine and the two levels of a signal (R7). -/

namespace Sys2Proof

/-- A command word or a response word (R60, R68). -/
abbrev Word := BitVec 32

/-- One byte of a frame or of a bus exchange (R46, R10). -/
abbrev Byte := BitVec 8

/-- One entry of the channel buffer, 16 bits (R21). -/
abbrev Entry := BitVec 16

/-- A level of a digital signal: `low` is 0, `high` is 1 (R7). -/
inductive Level where
  | low
  | high
  deriving DecidableEq, Repr

/-- The level that a stream bit is driven as (R103, R105). -/
def Level.ofBit : Bool → Level
  | false => .low
  | true => .high

/-- The other level, `1 - l` (R13). -/
def Level.other : Level → Level
  | .low => .high
  | .high => .low

end Sys2Proof
end

