-- ==== Sys2Proof/Syntax.lean ====
section
/-! DEFINITION. The six host commands (R61), one constructor per row of the opcode table. -/

namespace Sys2Proof

/-- A host command. An index is a plain number compared with N (R73); its field is 12 bits wide (R60), which
`Instr.wellFormed` checks. A value is the 16 bits that are stored. -/
inductive Instr where
  /-- `INIT` (R62, R80). -/
  | init
  /-- `SET_CHANNEL idx, val` (R63, R90). -/
  | setChannel (idx : Nat) (val : Entry)
  /-- `SET_ALL val` (R64, R91). -/
  | setAll (val : Entry)
  /-- `CLEAR` (R65, R92). -/
  | clear
  /-- `UPDATE` (R66, R100). -/
  | update
  /-- `READ_CHANNEL idx` (R67, R93). -/
  | readChannel (idx : Nat)
  deriving DecidableEq, Repr

end Sys2Proof
end

