-- ==== Sys2Proof/WellFormed.lean ====
section
/-! DEFINITION. Which commands an assembler accepts (R76): an operand must fit its field. -/

namespace Sys2Proof

/-- Every operand fits its field: `0 <= idx <= 4095` (R76). It does not ask for `idx < N`, which the engine
itself faults on (R122). A value fits by its type. -/
def Instr.wellFormed : Instr → Bool
  | .init => true
  | .setChannel idx _ => decide (idx ≤ 4095)
  | .setAll _ => true
  | .clear => true
  | .update => true
  | .readChannel idx => decide (idx ≤ 4095)

end Sys2Proof
end

