-- ==== Sys2Proof/Decode.lean ====
section
/-! DEFINITION. Decoding a command word (R72, R73), the rows of the opcode map (R61 to R67), and the encoder and
assembler (R60, R76). A word is moved whole over the port and has no byte order (R50). -/

namespace Sys2Proof

/-- Why a word is no command (R72); the engine answers both with ILLEGAL_CMD. -/
inductive IllegalWord where
  /-- `op` is one of the reserved values 0x0 and 0x7 to 0xF (R61). -/
  | reservedOp (op : BitVec 4)
  /-- `op` is legal and a must-be-zero bit is 1 (R61). -/
  | mustBeZero (op : BitVec 4)
  deriving DecidableEq, Repr

/-- The field `op`, bits 31:28 (R60). -/
def opField (w : Word) : BitVec 4 := w.extractLsb' 28 4

/-- The field `idx`, bits 27:16 (R60). -/
def idxField (w : Word) : BitVec 12 := w.extractLsb' 16 12

/-- The field `val`, bits 15:0 (R60). -/
def valField (w : Word) : Entry := w.extractLsb' 0 16

/-- Does the word meet a row's match under its mask (R72)? -/
def meets (w mask pattern : Word) : Bool := (w &&& mask) == pattern

/-- The name under which a word that meets no row is rejected (R72). -/
def illegalReason (w : Word) : IllegalWord :=
  if 1 ≤ (opField w).toNat ∧ (opField w).toNat ≤ 6 then .mustBeZero (opField w) else .reservedOp (opField w)

/-- `decode(w)` of R72, with the operands of R73: the index zero-extended, the value as it is. -/
def decode (w : Word) : Except IllegalWord Instr :=
  if meets w 0xFFFFFFFF 0x10000000 then .ok .init
  else if meets w 0xF0000000 0x20000000 then .ok (.setChannel (idxField w).toNat (valField w))
  else if meets w 0xFFFF0000 0x30000000 then .ok (.setAll (valField w))
  else if meets w 0xFFFFFFFF 0x40000000 then .ok .clear
  else if meets w 0xFFFFFFFF 0x50000000 then .ok .update
  else if meets w 0xF000FFFF 0x60000000 then .ok (.readChannel (idxField w).toNat)
  else .error (illegalReason w)

/-- One row of the opcode map (R61): the mnemonic of R76, the match and the mask of R62 to R67. -/
structure OpcodeRow where
  mnemonic : String
  pattern : Word
  mask : Word
  deriving DecidableEq, Repr

/-- The six rows of R61, with the match and mask of R62 to R67. -/
def opcodeRows : List OpcodeRow :=
  [ ⟨"INIT", 0x10000000, 0xFFFFFFFF⟩,
    ⟨"SET_CHANNEL", 0x20000000, 0xF0000000⟩,
    ⟨"SET_ALL", 0x30000000, 0xFFFF0000⟩,
    ⟨"CLEAR", 0x40000000, 0xFFFFFFFF⟩,
    ⟨"UPDATE", 0x50000000, 0xFFFFFFFF⟩,
    ⟨"READ_CHANNEL", 0x60000000, 0xF000FFFF⟩ ]

/-- The row of a command (R62 to R67). -/
def Instr.row : Instr → OpcodeRow
  | .init => ⟨"INIT", 0x10000000, 0xFFFFFFFF⟩
  | .setChannel _ _ => ⟨"SET_CHANNEL", 0x20000000, 0xF0000000⟩
  | .setAll _ => ⟨"SET_ALL", 0x30000000, 0xFFFF0000⟩
  | .clear => ⟨"CLEAR", 0x40000000, 0xFFFFFFFF⟩
  | .update => ⟨"UPDATE", 0x50000000, 0xFFFFFFFF⟩
  | .readChannel _ => ⟨"READ_CHANNEL", 0x60000000, 0xF000FFFF⟩

/-- The command format of R60: `op` 31:28, `idx` 27:16, `val` 15:0. -/
def commandWord (op : BitVec 4) (idx : BitVec 12) (val : Entry) : Word := op ++ idx ++ val

/-- The word of a command (R62 to R67). -/
def encode : Instr → Word
  | .init => commandWord 0x1 0 0
  | .setChannel idx val => commandWord 0x2 (BitVec.ofNat 12 idx) val
  | .setAll val => commandWord 0x3 0 val
  | .clear => commandWord 0x4 0 0
  | .update => commandWord 0x5 0 0
  | .readChannel idx => commandWord 0x6 (BitVec.ofNat 12 idx) 0

/-- The assembler of R76: it refuses an operand that does not fit its field, and not `idx >= N`. -/
def assemble (i : Instr) : Option Word := if i.wellFormed then some (encode i) else none

/-- A command in the assembler syntax of R76. -/
def Instr.asm : Instr → String
  | .init => "INIT"
  | .setChannel idx val => "SET_CHANNEL " ++ toString idx ++ ", " ++ toString val.toNat
  | .setAll val => "SET_ALL " ++ toString val.toNat
  | .clear => "CLEAR"
  | .update => "UPDATE"
  | .readChannel idx => "READ_CHANNEL " ++ toString idx

/-- The instruction the decoder reads from a table word of `nbits` bits; bits above `nbits` are 0, and the one
command format has 32 bits (R60). -/
def decodeTableWord (nbits w : Nat) : Option Instr :=
  match decode (BitVec.ofNat 32 (w % 2 ^ nbits)) with
  | .ok i => some i
  | .error _ => none

end Sys2Proof
end

