-- ==== Sys2Proof/Config.lean ====
section
/-! DEFINITION. The configuration of R5: what is fixed before reset and never changes while the engine runs.
Parameters the spec marks OPEN are plain fields: every statement quantifies over them. -/

namespace Sys2Proof

/-- `STRATEGY` (R5): A bit-bangs data and greyscale clock, B bit-bangs data, C writes one frame. -/
inductive Strategy where
  | A
  | B
  | C
  deriving DecidableEq, Repr

/-- `BLANK_KIND` (R5): how the blank line is realised. -/
inductive BlankKind where
  | pin
  | generator
  deriving DecidableEq, Repr

/-- `FRAMING` (R5): the optional hook around the frame of strategy C. -/
inductive Framing where
  | none
  | wrenPoll
  deriving DecidableEq, Repr

/-- The implementation parameters of R5. Any value of the type may be configured: INIT checks them (R81). -/
structure Config where
  /-- `N`, the number of channels. -/
  n : Nat
  /-- `STRATEGY`. -/
  strategy : Strategy
  /-- `BLANK_OFF_LEVEL`, OPEN: the level of `BLANK` that disables the outputs; R81 asks for 0 or 1. -/
  blankOffLevel : Nat
  /-- `BLANK_KIND`. -/
  blankKind : BlankKind
  /-- `GS_FREQ`, OPEN: frequency of the greyscale generator. -/
  gsFreq : Rat
  /-- `GS_DUTY`, OPEN: duty of the greyscale generator. -/
  gsDuty : Rat
  /-- `BUS_SPEED`, OPEN: clock speed of the bus. -/
  busSpeed : Rat
  /-- `FRAMING`. -/
  framing : Framing
  /-- `WREN_CMD`, OPEN: the write-enable command byte. -/
  wrenCmd : Byte
  /-- `STATUS_CMD`, OPEN: the command byte of the status read. -/
  statusCmd : Byte
  /-- `WIP_MASK`, OPEN: the status bits that mean "write in progress". -/
  wipMask : Byte
  deriving DecidableEq, Repr

/-- `BITS` (R5): significant bits per channel. -/
abbrev Config.bits : Nat := 12

/-- `GS_TICKS` (R5): greyscale ticks per strategy-A update. -/
abbrev Config.gsTicks : Nat := 4096

/-- The configuration of `State.reset`: that of the spec's own Program 1 (95_test_vectors.md), with
stand-ins for the parameters that are OPEN there. DESIGN CHOICE (log entry 2, unsafe): no source gives the
OPEN values, and no statement of this package rests on them; `State.resetFor` takes any configuration. -/
def Config.reference : Config where
  n := 48
  strategy := .C
  blankOffLevel := 1
  blankKind := .pin
  gsFreq := 1
  gsDuty := ⟨1, 2, by decide, by decide⟩
  busSpeed := 1
  framing := .none
  wrenCmd := 0
  statusCmd := 0
  wipMask := 1

end Sys2Proof
end

