-- ==== Sys2Proof/Machine/State.lean ====
section
/-! DEFINITION. The engine's state (R20 to R35) and its value after reset (R35, R141), as plain data; with it the
inputs the step reads (the host's words, the environment's answers, the reset line) and the observation of R14. -/

namespace Sys2Proof.Machine

/-- The channel buffer (R21, R40): (index, entry) pairs, indexes strictly rising, no entry 0; an index that is not
listed reads 0, the entry's value after reset (R141). The unit is the whole 16-bit entry (R41; log entry 8). -/
abbrev Memory := List (Nat × Entry)

/-- `phase` (R23). -/
inductive Phase where
  | uninit
  | ready
  | busy
  | faulted
  deriving DecidableEq, Repr

/-- The fault causes of R71. -/
inductive FaultCause where
  | none
  | illegalCmd
  | notInit
  | indexOob
  deriving DecidableEq, Repr

/-- `fault`, the sticky fault record (R25). -/
structure FaultRecord where
  cause : FaultCause
  info : Entry
  deriving DecidableEq, Repr

/-- The signals of R2 and R6. -/
inductive Signal where
  | data
  | sclk
  | latch
  | blank
  | gsclk
  | bus
  deriving DecidableEq, Repr

/-- The capability operations of R10. -/
inductive Op where
  | pinSet (s : Signal) (l : Level)
  | genStart (s : Signal) (freq duty : Rat)
  | genDuty (s : Signal) (duty : Rat)
  | busOpen (speed : Rat)
  | busWrite (bytes : List Byte)
  | busTransfer (bytes : List Byte)
  deriving DecidableEq, Repr

/-- What the environment answers an operation (R10). The two bytes are what a BusTransfer reads back: every
BusTransfer of the engine sends two bytes (R108); for any other operation they are no part of the answer. -/
inductive Answer where
  | ok (rx0 rx1 : Byte)
  | err
  deriving DecidableEq, Repr

/-- An answer as the trace shows it (R14): the bytes read back only for a BusTransfer. -/
inductive Reply where
  | ok
  | okRead (rx0 rx1 : Byte)
  | err
  deriving DecidableEq, Repr

/-- One capability operation of the trace, with the answer it got (R14). -/
structure TraceEntry where
  op : Op
  reply : Reply
  deriving DecidableEq, Repr

/-- The shadow of one output (R28): the level last driven, or UNKNOWN. -/
inductive Shadow where
  | unknown
  | driven (l : Level)
  deriving DecidableEq, Repr

/-- `lvl` (R28): the shadow levels of the outputs. -/
structure Levels where
  data : Shadow
  sclk : Shadow
  latch : Shadow
  gsclk : Shadow
  blank : Shadow
  deriving DecidableEq, Repr

/-- A step of `init_outputs` (R82, R83, R84): the operation that is being issued. -/
inductive InitStep where
  | data
  | sclk
  | latch
  | gsclk
  | blank
  | genStart
  | busOpen
  deriving DecidableEq, Repr

/-- An operation inside one tick of strategy A (R103). -/
inductive TickStep where
  | data
  | sclkHigh
  | sclkLow
  | gsclkHigh
  | gsclkLow
  deriving DecidableEq, Repr

/-- An operation inside one stream bit of strategy B (R105). -/
inductive BitStep where
  | data
  | sclkHigh
  | sclkLow
  deriving DecidableEq, Repr

/-- The sequencer position (R27): the operation of the running command that is being issued. `init` belongs to INIT,
every other position to UPDATE. -/
inductive Pos where
  /-- In `init_outputs` (R82, R83, R84). -/
  | init (st : InitStep)
  /-- Step 1 of UPDATE (R101). -/
  | blankOff
  /-- Tick `t` of strategy A (R103). -/
  | tick (t : Nat) (e : TickStep)
  /-- Stream bit `k` of strategy B (R105). -/
  | bit (k : Nat) (e : BitStep)
  /-- The last operation of strategy B's transfer (R105). -/
  | dataLow
  /-- `pre_hook` of strategy C, with the packed frame (R106, R107). -/
  | wren (frame : List Byte)
  /-- The bulk write of strategy C, with the packed frame (R106). -/
  | frame (frame : List Byte)
  /-- `post_hook` of strategy C, `n` polls answered so far (R108). -/
  | poll (n : Nat)
  /-- Step 3 of UPDATE, first half (R109). -/
  | latchHigh
  /-- Step 3 of UPDATE, second half (R109). -/
  | latchLow
  /-- Step 4 of UPDATE (R110). -/
  | blankOn
  deriving DecidableEq, Repr

/-- The environment's answers to the operations still to be issued, in order (R14): first `answers`, then `cycle`
over and over. With both empty there is no answer yet. Inputs of the model (log entry 4). -/
structure Env where
  answers : List Answer
  cycle : List Answer
  deriving DecidableEq, Repr

/-- The state: what R20 lists, the configuration (R5), the inputs, and the observation of R14. -/
structure State where
  /-- The configuration (R5). Not state in the spec (R31): no step writes it (log entry 1). -/
  cfg : Config
  /-- `buf` (R21). -/
  buf : Memory
  /-- `phase` (R23). -/
  phase : Phase
  /-- `fault` (R25). -/
  fault : FaultRecord
  /-- `resp` (R26). -/
  resp : Option Word
  /-- The sequencer position (R27); `none` outside BUSY. -/
  seq : Option Pos
  /-- `lvl` (R28). -/
  lvl : Levels
  /-- `gen_on` (R32). -/
  genOn : Bool
  /-- `bus_open` (R32). -/
  busOpen : Bool
  /-- Input: the words the host offers, in order; the head is the word on the one-place command channel, and the
  next is offered when that one has been answered (R74; log entry 5). -/
  offers : List Word
  /-- Input: the environment's answers (R14; log entry 4). -/
  env : Env
  /-- Input: the platform asserts reset (R140; log entry 6). -/
  resetLine : Bool
  /-- Observation: the trace of R14, newest first (log entry 7). -/
  traceRev : List TraceEntry
  /-- Observation: the response words of R14, newest first (log entry 7). -/
  responsesRev : List Word
  deriving DecidableEq, Repr

/-- Why a step stops. No instruction raises one: the faults of R121 are next states. -/
inductive Fault where
  /-- Raised by `step` in phase BUSY with no sequencer position: R27 gives BUSY a position, so the spec has no such
  state and no run reaches one. Safe. -/
  | busyWithoutPosition
  deriving DecidableEq, Repr

/-- Why a step is refused. -/
inductive Refusal where
  /-- Raised by `exec` for an instruction that has no meaning yet; safe. No arm raises it. -/
  | notModelled (mnemonic : String)
  deriving DecidableEq, Repr

/-- Every output's shadow after reset: UNKNOWN (R142). -/
def Levels.unknown : Levels := ⟨.unknown, .unknown, .unknown, .unknown, .unknown⟩

/-- No fault recorded (R25). -/
def FaultRecord.clear : FaultRecord := ⟨.none, 0⟩

/-- The state right after reset under a configuration (the table of R35, R141), with no word offered, no answer given
and nothing observed. -/
def State.resetFor (cfg : Config) : State where
  cfg := cfg
  buf := []
  phase := .uninit
  fault := .clear
  resp := none
  seq := none
  lvl := .unknown
  genOn := false
  busOpen := false
  offers := []
  env := ⟨[], []⟩
  resetLine := false
  traceRev := []
  responsesRev := []

/-- The state right after reset under `Config.reference` (R35, R141; log entry 2). -/
def State.reset : State := .resetFor .reference

/-- The trace in issue order (R14). -/
def State.trace (s : State) : List TraceEntry := s.traceRev.reverse

/-- The response words in order (R14). -/
def State.responses (s : State) : List Word := s.responsesRev.reverse

end Sys2Proof.Machine
end

