-- ==== Sys2Proof/Machine/Flags.lean ====
section
/-! DEFINITION. The engine has no flags or condition codes; the only status a command reports is its response word
(R30). This file is that status: the fields and codes of R68 to R71. -/

namespace Sys2Proof.Machine

/-- The outcomes of R69. -/
inductive RespCode where
  | ok
  | ioError
  | configError
  | faulted
  deriving DecidableEq, Repr

/-- `code` (R69). -/
def respCode : RespCode → BitVec 4
  | .ok => 0x0
  | .ioError => 0x1
  | .configError => 0x2
  | .faulted => 0xF

/-- `sigcode(s)`, the field `sig` (R70). -/
def sigCode : Signal → BitVec 4
  | .data => 0x1
  | .sclk => 0x2
  | .latch => 0x3
  | .blank => 0x4
  | .gsclk => 0x5
  | .bus => 0x6

/-- `cause` (R71). -/
def causeCode : FaultCause → BitVec 8
  | .none => 0x00
  | .illegalCmd => 0x01
  | .notInit => 0x02
  | .indexOob => 0x03

/-- The response word `{code[3:0], sig[3:0], cause[7:0], data[15:0]}` (R68). -/
def responseWord (code sig : BitVec 4) (cause : BitVec 8) (data : Entry) : Word := code ++ sig ++ cause ++ data

/-- `OK` with data (R68, R69). -/
def okWord (data : Entry) : Word := responseWord (respCode .ok) 0 0 data

/-- `IO_ERROR` on a signal (R68, R123). -/
def ioErrorWord (s : Signal) : Word := responseWord (respCode .ioError) (sigCode s) 0 0

/-- `CONFIG_ERROR` (R68, R124). -/
def configErrorWord : Word := responseWord (respCode .configError) 0 0 0

/-- `FAULTED` with the stored fault (R68, R121). -/
def faultedWord (f : FaultRecord) : Word := responseWord (respCode .faulted) 0 (causeCode f.cause) f.info

end Sys2Proof.Machine
end

