-- ==== Sys2Proof/Machine/Memory.lean ====
section
/-! DEFINITION. Reads and writes of the channel buffer (R8, R40 to R42), and its canonical form. -/

namespace Sys2Proof.Machine

/-- `buf[i]`, all 16 bits (R8); an index that is not listed reads 0 (R141). -/
def Memory.read : Memory → Nat → Entry
  | [], _ => 0
  | (j, w) :: m, i => if i = j then w else Memory.read m i

/-- `buf[i] <- v` (R8), keeping the canonical form: a zero entry is not listed. -/
def Memory.write : Memory → Nat → Entry → Memory
  | [], i, v => if v = 0 then [] else [(i, v)]
  | (j, w) :: m, i, v =>
    if i < j then (if v = 0 then (j, w) :: m else (i, v) :: (j, w) :: m)
    else if i = j then (if v = 0 then m else (i, v) :: m)
    else (j, w) :: Memory.write m i v

/-- `for i in 0 .. N-1: buf[i] <- v` (R80, R91, R92): the buffer with every entry `v`. -/
def Memory.fill (n : Nat) (v : Entry) : Memory :=
  if v = 0 then [] else (List.range n).map (fun i => (i, v))

/-- The indexes rise strictly from `lo` on and no entry is 0. -/
def Memory.wfFrom : Nat → Memory → Bool
  | _, [] => true
  | lo, (j, w) :: m => decide (lo ≤ j) && decide (w ≠ 0) && Memory.wfFrom (j + 1) m

/-- The canonical form: indexes strictly rising, no entry 0. -/
def Memory.wf (m : Memory) : Bool := Memory.wfFrom 0 m

/-- Only indexes below `n` are listed: the index space is 0 to N-1 (R40). -/
def Memory.below (n : Nat) : Memory → Bool
  | [] => true
  | (j, _) :: m => decide (j < n) && Memory.below n m

end Sys2Proof.Machine
end

