-- ==== Sys2Proof/Machine/Operands.lean ====
section
/-! DEFINITION. Operands: the index and value of a command (R73), the range check (R41), the two blank levels and the
duty that stands for a level (R13). -/

namespace Sys2Proof.Machine

/-- Is the index in range, `idx < N`? It is compared unchanged, never wrapped or masked (R41, R73). -/
def idxInRange (cfg : Config) (idx : Nat) : Bool := decide (idx < cfg.n)

/-- `zext_16(idx)`, the info of an INDEX_OOB fault (R73, R122). -/
def idxInfo (idx : Nat) : Entry := BitVec.ofNat 16 idx

/-- `OFF`, the level of BLANK that disables the outputs (R13). A `BLANK_OFF_LEVEL` other than 0 and 1 is invalid
(R81), so that no command that drives BLANK runs with one. -/
def offLevel (cfg : Config) : Level := if cfg.blankOffLevel = 0 then .low else .high

/-- `ON = 1 - BLANK_OFF_LEVEL` (R13). -/
def onLevel (cfg : Config) : Level := (offLevel cfg).other

/-- The duty that makes a generator hold a level: 1 is always high, 0 is always low (R13). -/
def dutyOf : Level → Rat
  | .low => 0
  | .high => 1

/-- The level whose duty was set (R28). -/
def levelOfDuty (d : Rat) : Level := if d = 1 then .high else .low

end Sys2Proof.Machine
end

