-- ==== Sys2Proof/Machine/Ops.lean ====
section
/-! DEFINITION. The shared operations: the command port (R74), responses (R8, R68), taking a fault and leaving it by
reset (R121, R140), I/O and configuration errors (R123, R124), dispatch (R75), and the effect of an operation's answer
(R11, R14, R28, R32). -/

namespace Sys2Proof.Machine

/-- The word on the command port, if the host offers one (R74). -/
def fetchWord (s : State) : Option Word := s.offers.head?

/-- The engine accepts the offered word (R74). -/
def takeWord (s : State) : State := { s with offers := s.offers.tail }

/-- `respond`: the response word is returned and kept in `resp`, and the command ends (R8, R26, R68); a sequencer
position exists only while a command runs (R27). -/
def respond (w : Word) (s : State) : State :=
  { s with resp := some w, responsesRev := w :: s.responsesRev, seq := none }

/-- `phase <- p`. -/
def setPhase (p : Phase) (s : State) : State := { s with phase := p }

/-- The fault record after a fault: the first fault is kept (R25, R121). -/
def recordFault (f : FaultRecord) (cause : FaultCause) (info : Entry) : FaultRecord :=
  if f.cause = .none then ⟨cause, info⟩ else f

/-- The answer to a word in phase FAULTED: the stored fault, no other effect (R75, R121). -/
def answerFaulted (s : State) : State := respond (faultedWord s.fault) s

/-- `raise Fault(cause, info)`: taking a fault (R121). -/
def raiseFault (cause : FaultCause) (info : Entry) (s : State) : State :=
  answerFaulted { s with fault := recordFault s.fault cause info, phase := .faulted }

/-- Reset: the only way out of phase FAULTED (R129, R140). Every piece of state takes the value of R141 and a running
command is abandoned without a response; no operation is issued (R142). The configuration stays (R5), and so do the
host's words, the environment's answers and the observation, which are outside the engine (log entry 6). An operation still
outstanding leaves no trace entry and takes no answer. DESIGN CHOICE (log entry 22, unsafe). -/
def applyReset (s : State) : State :=
  { State.resetFor s.cfg with
    offers := s.offers, env := s.env, traceRev := s.traceRev, responsesRev := s.responsesRev }

/-- `raise IoError(s)`: INIT ends in UNINIT, UPDATE in READY (R123). -/
def raiseIoError (inInit : Bool) (sig : Signal) (s : State) : State :=
  respond (ioErrorWord sig) (setPhase (if inInit then .uninit else .ready) s)

/-- `raise ConfigError` (R124). -/
def raiseConfigError (s : State) : State := respond configErrorWord (setPhase .uninit s)

/-- The end of a command that completes: `phase <- READY` and `respond(OK, 0, 0, data)` (R80, R90 to R93, R100). -/
def complete (data : Entry) (s : State) : State := respond (okWord data) (setPhase .ready s)

/-- Dispatch of a legal word with its checks in order (R75): FAULTED answers the stored fault; a command other than
INIT in UNINIT raises NOT_INIT; otherwise the rule of the command runs. In phase BUSY the port accepts nothing, so
that the word waits (R74). -/
def dispatch (isInit : Bool) (run : State → State) (s : State) : Host.Outcome State Fault Refusal :=
  match s.phase with
  | .busy => .next s
  | .faulted => .next (answerFaulted (takeWord s))
  | .uninit => if isInit then .next (run (takeWord s)) else .next (raiseFault .notInit 0 (takeWord s))
  | .ready => .next (run (takeWord s))

/-- Dispatch of an illegal word (R75, R126): the stored fault in FAULTED, else the fault ILLEGAL_CMD, in UNINIT too. -/
def dispatchIllegal (s : State) : Host.Outcome State Fault Refusal :=
  match s.phase with
  | .busy => .next s
  | .faulted => .next (answerFaulted (takeWord s))
  | .uninit => .next (raiseFault .illegalCmd 0 (takeWord s))
  | .ready => .next (raiseFault .illegalCmd 0 (takeWord s))

/-- A command with operations starts: `phase <- BUSY` at its first position (R75, R27). -/
def startAt (p : Pos) (s : State) : State := { s with phase := .busy, seq := some p }

/-- The next answer of the environment, and the answers after it (R14; log entry 4). -/
def nextAnswer (e : Env) : Option (Answer × Env) :=
  match e.answers with
  | a :: as => some (a, { e with answers := as })
  | [] =>
    match e.cycle with
    | [] => none
    | c :: cs => some (c, { e with answers := cs })

/-- Did the operation succeed? -/
def Answer.isOk : Answer → Bool
  | .ok _ _ => true
  | .err => false

/-- The signal of an operation (R10). -/
def Op.signal : Op → Signal
  | .pinSet s _ => s
  | .genStart s _ _ => s
  | .genDuty s _ => s
  | .busOpen _ => .bus
  | .busWrite _ => .bus
  | .busTransfer _ => .bus

/-- The answer as the trace shows it (R10, R14): only a BusTransfer reads bytes back. -/
def replyTo (op : Op) (a : Answer) : Reply :=
  match a with
  | .err => .err
  | .ok r0 r1 =>
    match op with
    | .busTransfer _ => .okRead r0 r1
    | _ => .ok

/-- `lvl[s]` (R28); the bus has no level. -/
def Levels.get (v : Levels) : Signal → Shadow
  | .data => v.data
  | .sclk => v.sclk
  | .latch => v.latch
  | .gsclk => v.gsclk
  | .blank => v.blank
  | .bus => .unknown

/-- `lvl[s] <- x` (R28); the bus has no level. -/
def Levels.set (v : Levels) (s : Signal) (x : Shadow) : Levels :=
  match s with
  | .data => { v with data := x }
  | .sclk => { v with sclk := x }
  | .latch => { v with latch := x }
  | .gsclk => { v with gsclk := x }
  | .blank => { v with blank := x }
  | .bus => v

/-- The shadow after an operation that would leave level `l`: `l` on Ok, UNKNOWN on Err (R28). -/
def shadowAfter (ok : Bool) (l : Level) : Shadow := if ok then .driven l else .unknown

/-- `lvl` after an operation's answer (R28): PinSet and GenDuty write it. -/
def levelsAfter (op : Op) (ok : Bool) (v : Levels) : Levels :=
  match op with
  | .pinSet s l => v.set s (shadowAfter ok l)
  | .genDuty s d => v.set s (shadowAfter ok (levelOfDuty d))
  | _ => v

/-- `gen_on` after an operation's answer (R32): set by a GenStart answered Ok, never set false. -/
def genOnAfter (op : Op) (ok : Bool) (g : Bool) : Bool :=
  match op with
  | .genStart _ _ _ => g || ok
  | _ => g

/-- `bus_open` after an operation's answer (R32): set by a BusOpen answered Ok, never set false. -/
def busOpenAfter (op : Op) (ok : Bool) (b : Bool) : Bool :=
  match op with
  | .busOpen _ => b || ok
  | _ => b

/-- An operation has been answered: the trace (R14), `lvl` (R28), `gen_on` and `bus_open` (R32). -/
def observe (op : Op) (a : Answer) (s : State) : State :=
  { s with
    traceRev := ⟨op, replyTo op a⟩ :: s.traceRev
    lvl := levelsAfter op a.isOk s.lvl
    genOn := genOnAfter op a.isOk s.genOn
    busOpen := busOpenAfter op a.isOk s.busOpen }

end Sys2Proof.Machine
end

