-- ==== Sys2Proof/Machine/Buffer.lean ====
section
/-! DEFINITION. The channel buffer commands (R90 to R95). None issues a capability operation (R94); each completes in
the step that accepts it. -/

namespace Sys2Proof.Machine

/-- The range check of SET_CHANNEL and READ_CHANNEL (R90, R93): `INDEX_OOB` with the index, before any write. -/
def checkIdx (idx : Nat) (run : State → State) (s : State) : State :=
  if idxInRange s.cfg idx then run s else raiseFault .indexOob (idxInfo idx) s

/-- `SET_CHANNEL idx, val` (R90). -/
def execSetChannel (idx : Nat) (val : Entry) (s : State) : Host.Outcome State Fault Refusal :=
  dispatch false (checkIdx idx (fun s => complete 0 { s with buf := s.buf.write idx val })) s

/-- `SET_ALL val` (R91). -/
def execSetAll (val : Entry) (s : State) : Host.Outcome State Fault Refusal :=
  dispatch false (fun s => complete 0 { s with buf := Memory.fill s.cfg.n val }) s

/-- `CLEAR` (R92). -/
def execClear (s : State) : Host.Outcome State Fault Refusal :=
  dispatch false (fun s => complete 0 { s with buf := Memory.fill s.cfg.n 0 }) s

/-- `READ_CHANNEL idx` (R93). -/
def execReadChannel (idx : Nat) (s : State) : Host.Outcome State Fault Refusal :=
  dispatch false (checkIdx idx (fun s => complete (s.buf.read idx) s)) s

end Sys2Proof.Machine
end

