-- ==== Sys2Proof/Machine/Stream.lean ====
section
/-! DEFINITION. The serial stream and the packed frame (R45 to R51). -/

namespace Sys2Proof.Machine

/-- `NBITS = 12 * N`, the length of the stream (R5, R45). -/
def nbits (n : Nat) : Nat := 12 * n

/-- `NBYTES = ceil(12 * N / 8)`, the length of the frame (R5, R47). -/
def nbytes (n : Nat) : Nat := (12 * n + 7) / 8

/-- `S(k)`: bit `11 - (k mod 12)` of the entry of channel `N - 1 - (k div 12)` (R45). -/
def streamBit (n : Nat) (buf : Memory) (k : Nat) : Bool :=
  (buf.read (n - 1 - k / 12)).getLsbD (11 - k % 12)

/-- The stream `S[0 .. 12N-1]`, first bit first (R45). -/
def stream (n : Nat) (buf : Memory) : List Bool := (List.range (nbits n)).map (streamBit n buf)

/-- Bit number `k` of the frame counted along the wire: stream bit `k`, and 0 past the stream's end (R46, R49). -/
def frameBit (n : Nat) (buf : Memory) (k : Nat) : Bool := decide (k < nbits n) && streamBit n buf k

/-- A byte whose bit 7 is the first of the eight bits (R46). -/
def byteOfBits (b0 b1 b2 b3 b4 b5 b6 b7 : Bool) : Byte := BitVec.ofBoolListBE [b0, b1, b2, b3, b4, b5, b6, b7]

/-- `F[j]`: wire bit `8 j + r` in bit `7 - r` (R46). -/
def frameByte (n : Nat) (buf : Memory) (j : Nat) : Byte :=
  byteOfBits (frameBit n buf (8 * j)) (frameBit n buf (8 * j + 1)) (frameBit n buf (8 * j + 2))
    (frameBit n buf (8 * j + 3)) (frameBit n buf (8 * j + 4)) (frameBit n buf (8 * j + 5))
    (frameBit n buf (8 * j + 6)) (frameBit n buf (8 * j + 7))

/-- `pack(buf)`: the frame `F[0 .. NBYTES-1]`, first byte first (R46, R106). -/
def pack (n : Nat) (buf : Memory) : List Byte := (List.range (nbytes n)).map (frameByte n buf)

/-- `F[k div 8][7 - (k mod 8)]` (R46, R51). -/
def wireBit (f : List Byte) (k : Nat) : Bool := (f.getD (k / 8) 0).getLsbD (7 - k % 8)

/-- The sum of R51: bit `b` of channel `c` is wire bit `12 * (N - 1 - c) + (11 - b)`. -/
def unpackEntry (n : Nat) (f : List Byte) (c : Nat) : Nat :=
  ((List.range 12).map (fun b => (wireBit f (12 * (n - 1 - c) + (11 - b))).toNat * 2 ^ b)).sum

end Sys2Proof.Machine
end

