-- ==== Sys2Proof/Machine/Protocol.lean ====
section
/-! DEFINITION. The operation sequences of INIT and UPDATE as the rules write them down (R12, R13, R82 to R84, R100 to
R110), as lists. The sequencer (Machine/Sequencer.lean) issues them one by one; that the two agree is an obligation. -/

namespace Sys2Proof.Machine

/-- `Pulse(s)`: set high, then set low (R12). -/
def pulse (s : Signal) : List Op := [.pinSet s .high, .pinSet s .low]

/-- The one operation of `BlankSet(l)` (R13). -/
def blankSet (cfg : Config) (l : Level) : Op :=
  match cfg.blankKind with
  | .pin => .pinSet .blank l
  | .generator => .genDuty .blank (dutyOf l)

/-- `GenStart(GSCLK, GS_FREQ, GS_DUTY)` (R83, R84). -/
def gsclkStart (cfg : Config) : Op := .genStart .gsclk cfg.gsFreq cfg.gsDuty

/-- `init_outputs()` (R82 for A, R83 for B, R84 for C). -/
def initOutputs (cfg : Config) : List Op :=
  match cfg.strategy with
  | .A =>
    [.pinSet .data .low, .pinSet .sclk .low, .pinSet .latch .low, .pinSet .gsclk .low, blankSet cfg (offLevel cfg)]
  | .B =>
    [.pinSet .data .low, .pinSet .sclk .low, .pinSet .latch .low, blankSet cfg (offLevel cfg), gsclkStart cfg]
  | .C =>
    [.pinSet .latch .low, blankSet cfg (offLevel cfg), gsclkStart cfg, .busOpen cfg.busSpeed]

/-- One tick of `transfer_A()` (R103). -/
def tickOps (n : Nat) (buf : Memory) (t : Nat) : List Op :=
  if t < nbits n then .pinSet .data (Level.ofBit (streamBit n buf t)) :: (pulse .sclk ++ pulse .gsclk)
  else (if t = nbits n then [.pinSet .data .low] else []) ++ pulse .gsclk

/-- `transfer_A()` (R103). -/
def transferA (n : Nat) (buf : Memory) : List Op := (List.range Config.gsTicks).flatMap (tickOps n buf)

/-- One stream bit of `transfer_B()` (R105). -/
def bitOps (n : Nat) (buf : Memory) (k : Nat) : List Op :=
  .pinSet .data (Level.ofBit (streamBit n buf k)) :: pulse .sclk

/-- `transfer_B()` (R105). -/
def transferB (n : Nat) (buf : Memory) : List Op :=
  (List.range (nbits n)).flatMap (bitOps n buf) ++ [.pinSet .data .low]

/-- The status exchange of `post_hook()` (R108). -/
def statusPoll (cfg : Config) : Op := .busTransfer [cfg.statusCmd, 0x00]

/-- `transfer_C()` (R106) in which the status poll is issued `polls` times (R108); unframed it is not issued. -/
def transferC (cfg : Config) (buf : Memory) (polls : Nat) : List Op :=
  match cfg.framing with
  | .none => [.busWrite (pack cfg.n buf)]
  | .wrenPoll => [.busWrite [cfg.wrenCmd], .busWrite (pack cfg.n buf)] ++ List.replicate polls (statusPoll cfg)

/-- Step 2 of UPDATE (R102). -/
def transfer (cfg : Config) (buf : Memory) (polls : Nat) : List Op :=
  match cfg.strategy with
  | .A => transferA cfg.n buf
  | .B => transferB cfg.n buf
  | .C => transferC cfg buf polls

/-- The operations of an UPDATE that completes (R100), with `polls` status polls where there are any. -/
def updateOps (cfg : Config) (buf : Memory) (polls : Nat) : List Op :=
  blankSet cfg (offLevel cfg) :: (transfer cfg buf polls ++ (pulse .latch ++ [blankSet cfg (onLevel cfg)]))

/-- Does an UPDATE under this configuration poll a status (R106)? -/
def polled (cfg : Config) : Bool := decide (cfg.strategy = .C) && decide (cfg.framing = .wrenPoll)

/-- The operation count of a completed UPDATE (R113). -/
def updateCount (cfg : Config) (polls : Nat) : Nat :=
  match cfg.strategy with
  | .A => 36 * cfg.n + 8197
  | .B => 36 * cfg.n + 5
  | .C => if cfg.framing = .wrenPoll then 6 + polls else 5

end Sys2Proof.Machine
end

