-- ==== Sys2Proof/Machine/Sequencer.lean ====
section
/-! DEFINITION. The sequencer (R27): the operation of each position, the position after an operation answered Ok, and
one capability transaction (R11, R55). -/

namespace Sys2Proof.Machine

/-- The operation of a step of `init_outputs` (R82, R83, R84). -/
def initStepOp (cfg : Config) : InitStep → Op
  | .data => .pinSet .data .low
  | .sclk => .pinSet .sclk .low
  | .latch => .pinSet .latch .low
  | .gsclk => .pinSet .gsclk .low
  | .blank => blankSet cfg (offLevel cfg)
  | .genStart => gsclkStart cfg
  | .busOpen => .busOpen cfg.busSpeed

/-- The first step of `init_outputs`: strategy C has no DATA and SCLK outputs (R82, R83, R84). -/
def firstInitStep (cfg : Config) : InitStep :=
  match cfg.strategy with
  | .A => .data
  | .B => .data
  | .C => .latch

/-- The step of `init_outputs` after one answered Ok; `none` after the last (R82, R83, R84). -/
def nextInitStep (cfg : Config) : InitStep → Option InitStep
  | .data => some .sclk
  | .sclk => some .latch
  | .latch => some (if cfg.strategy = .A then .gsclk else .blank)
  | .gsclk => some .blank
  | .blank => if cfg.strategy = .A then none else some .genStart
  | .genStart => if cfg.strategy = .C then some .busOpen else none
  | .busOpen => none

/-- The operation of a position (R100 to R110). -/
def posOp (cfg : Config) (buf : Memory) : Pos → Op
  | .init st => initStepOp cfg st
  | .blankOff => blankSet cfg (offLevel cfg)
  | .tick t .data => .pinSet .data (if t < nbits cfg.n then Level.ofBit (streamBit cfg.n buf t) else .low)
  | .tick _ .sclkHigh => .pinSet .sclk .high
  | .tick _ .sclkLow => .pinSet .sclk .low
  | .tick _ .gsclkHigh => .pinSet .gsclk .high
  | .tick _ .gsclkLow => .pinSet .gsclk .low
  | .bit k .data => .pinSet .data (Level.ofBit (streamBit cfg.n buf k))
  | .bit _ .sclkHigh => .pinSet .sclk .high
  | .bit _ .sclkLow => .pinSet .sclk .low
  | .dataLow => .pinSet .data .low
  | .wren _ => .busWrite [cfg.wrenCmd]
  | .frame f => .busWrite f
  | .poll _ => statusPoll cfg
  | .latchHigh => .pinSet .latch .high
  | .latchLow => .pinSet .latch .low
  | .blankOn => blankSet cfg (onLevel cfg)

/-- Where tick `t` starts: the ticks after tick 12N only pulse GSCLK (R103). -/
def tickStart (n t : Nat) : Pos := if t ≤ nbits n then .tick t .data else .tick t .gsclkHigh

/-- Where stream bit `k` starts; after the last bit DATA is driven low (R105). -/
def bitStart (n k : Nat) : Pos := if k < nbits n then .bit k .data else .dataLow

/-- The first position of step 2 (R102); strategy C packs the buffer here (R106). -/
def transferStart (cfg : Config) (buf : Memory) : Pos :=
  match cfg.strategy with
  | .A => tickStart cfg.n 0
  | .B => bitStart cfg.n 0
  | .C =>
    match cfg.framing with
    | .none => .frame (pack cfg.n buf)
    | .wrenPoll => .wren (pack cfg.n buf)

/-- Does the status byte say that a write is in progress (R108)? -/
def writeInProgress (cfg : Config) (status : Byte) : Bool := decide (status &&& cfg.wipMask ≠ 0)

/-- The position after an operation answered Ok, `rx1` being the second byte read back by a BusTransfer (R108); `none`
after the command's last operation. -/
def nextPos (cfg : Config) (buf : Memory) (rx1 : Byte) : Pos → Option Pos
  | .init st => (nextInitStep cfg st).map .init
  | .blankOff => some (transferStart cfg buf)
  | .tick t .data => some (if t < nbits cfg.n then .tick t .sclkHigh else .tick t .gsclkHigh)
  | .tick t .sclkHigh => some (.tick t .sclkLow)
  | .tick t .sclkLow => some (.tick t .gsclkHigh)
  | .tick t .gsclkHigh => some (.tick t .gsclkLow)
  | .tick t .gsclkLow => some (if t + 1 < Config.gsTicks then tickStart cfg.n (t + 1) else .latchHigh)
  | .bit k .data => some (.bit k .sclkHigh)
  | .bit k .sclkHigh => some (.bit k .sclkLow)
  | .bit k .sclkLow => some (bitStart cfg.n (k + 1))
  | .dataLow => some .latchHigh
  | .wren f => some (.frame f)
  | .frame _ => some (if cfg.framing = .wrenPoll then .poll 0 else .latchHigh)
  | .poll p => some (if writeInProgress cfg rx1 then .poll (p + 1) else .latchHigh)
  | .latchHigh => some .latchLow
  | .latchLow => some .blankOn
  | .blankOn => none

/-- Does the position belong to INIT (R123)? -/
def inInit : Pos → Bool
  | .init _ => true
  | _ => false

/-- The command goes on at a position, or completes after its last operation (R80, R100). -/
def advance (p : Option Pos) (s : State) : State :=
  match p with
  | some p => { s with seq := some p }
  | none => complete 0 s

/-- One capability transaction at position `p` (R11, R55): the operation is issued and answered; on Ok the command
goes on, on Err it ends with `IoError` and nothing more is issued (R123). -/
def transact (p : Pos) (a : Answer) (s : State) : State :=
  match a with
  | .ok _ rx1 => advance (nextPos s.cfg s.buf rx1 p) (observe (posOp s.cfg s.buf p) a s)
  | .err => raiseIoError (inInit p) (posOp s.cfg s.buf p).signal (observe (posOp s.cfg s.buf p) a s)

/-- A step in phase BUSY: the outstanding operation is answered, or is still outstanding (R55, R154). It enters the trace
with its answer; if reset comes first it never does. DESIGN CHOICE (log entry 22, unsafe). -/
def busyStep (p : Pos) (s : State) : State :=
  match nextAnswer s.env with
  | some (a, rest) => transact p a { s with env := rest }
  | none => s

end Sys2Proof.Machine
end

