-- ==== Sys2Proof/Machine/Init.lean ====
section
/-! DEFINITION. INIT (R80 to R87). -/

namespace Sys2Proof.Machine

/-- `config_valid()` (R81). -/
def configValid (cfg : Config) : Bool :=
  decide (1 ≤ cfg.n) && decide (cfg.n ≤ 4096)
  && (decide (cfg.strategy ≠ .A) || decide (cfg.n ≤ 341))
  && (decide (cfg.strategy = .A) || (decide (0 < cfg.gsFreq) && decide (0 < cfg.gsDuty) && decide (cfg.gsDuty < 1)))
  && (decide (cfg.strategy ≠ .C) || decide (0 < cfg.busSpeed))
  && (decide (cfg.framing = .none) || decide (cfg.strategy = .C))
  && (decide (cfg.framing ≠ .wrenPoll) || decide (cfg.wipMask ≠ 0))
  && (decide (cfg.blankOffLevel = 0) || decide (cfg.blankOffLevel = 1))

/-- The rule of INIT up to its first operation (R80): an invalid configuration ends it with nothing issued and the
buffer as it was (R124); else the buffer is cleared and `init_outputs` begins. -/
def runInit (s : State) : State :=
  if configValid s.cfg then startAt (.init (firstInitStep s.cfg)) { s with buf := Memory.fill s.cfg.n 0 }
  else raiseConfigError s

/-- `INIT` (R80). -/
def execInit (s : State) : Host.Outcome State Fault Refusal := dispatch true runInit s

end Sys2Proof.Machine
end

