-- ==== Sys2Proof/Machine/Update.lean ====
section
/-! DEFINITION. UPDATE (R100 to R116). Accepting it puts the sequencer at step 1; every operation of it is one
transaction of the steps that follow (Machine/Sequencer.lean). -/

namespace Sys2Proof.Machine

/-- `UPDATE` (R100). -/
def execUpdate (s : State) : Host.Outcome State Fault Refusal := dispatch false (startAt .blankOff) s

end Sys2Proof.Machine
end

