-- ==== Sys2Proof/Machine/Dispatch.lean ====
section
/-! DEFINITION. The dispatch of a decoded command to its meaning (R75). -/

namespace Sys2Proof.Machine

-- One arm per row of the opcode table (R61).
def exec (i : Instr) (s : State) : Host.Outcome State Fault Refusal :=
  match i with
  | .init => Sys2Proof.Machine.execInit s
  | .setChannel idx val => Sys2Proof.Machine.execSetChannel idx val s
  | .setAll val => Sys2Proof.Machine.execSetAll val s
  | .clear => Sys2Proof.Machine.execClear s
  | .update => Sys2Proof.Machine.execUpdate s
  | .readChannel idx => Sys2Proof.Machine.execReadChannel idx s

end Sys2Proof.Machine
end

