-- ==== Sys2Proof/Machine/Step.lean ====
section
/-! DEFINITION. One step: a reset, or one capability transaction of the running command, or the acceptance of one word
(R53, R55, R74, R75, R140; log entry 3). -/

namespace Sys2Proof.Machine

/-- The engine accepts a word: decode it and dispatch it (R75). -/
def acceptWord (w : Word) (s : State) : Host.Outcome State Fault Refusal :=
  match decode w with
  | .ok i => exec i s
  | .error _ => dispatchIllegal s

/-- A step outside BUSY: with no word offered the engine is idle and holds all its state (R74, R136). -/
def portStep (s : State) : Host.Outcome State Fault Refusal :=
  match fetchWord s with
  | some w => acceptWord w s
  | none => .next s

/-- One step. Reset is seen first, in any phase (R140). In BUSY the port accepts nothing (R74) and the sequencer
performs one transaction (R55). -/
def step (s : State) : Host.Outcome State Fault Refusal :=
  if s.resetLine then .next (applyReset s)
  else
    match s.phase with
    | .busy =>
      match s.seq with
      | some p => .next (busyStep p s)
      | none => .fault .busyWithoutPosition
    | .uninit => portStep s
    | .ready => portStep s
    | .faulted => portStep s

/-- `s` with the word `w` (its low `nbits` bits) offered by the host as the next one, and the engine able to accept it
in the very next step: no reset asserted, and no command running (R74; log entry 5). -/
def State.withFetchWord (s : State) (nbits w : Nat) : State :=
  { s with
    offers := BitVec.ofNat 32 (w % 2 ^ nbits) :: s.offers
    resetLine := false
    phase := if s.phase = .busy then .ready else s.phase
    seq := if s.phase = .busy then none else s.seq }

end Sys2Proof.Machine
end

