-- ==== Sys2Proof/Machine/Receiver.lean ====
section
/-! DEFINITION. The receiver model of R52: informative, no part of the engine (R4). It reads a list of operations and
says what a chip wired to the signals would hold. -/

namespace Sys2Proof.Machine

/-- A receiver (R52): the level on its data input, its shift register with bit 0 first, its greyscale registers. -/
structure Receiver where
  dataIn : Bool
  sr : List Bool
  gs : List Nat
  deriving DecidableEq, Repr

/-- `SR <- {SR[12N-2:0], d}` (R52). -/
def Receiver.shiftIn (n : Nat) (r : Receiver) (d : Bool) : Receiver := { r with sr := (d :: r.sr).take (nbits n) }

/-- `SR[12c+11 : 12c]` (R52). -/
def srEntry (sr : List Bool) (c : Nat) : Nat :=
  ((List.range 12).map (fun b => (sr.getD (12 * c + b) false).toNat * 2 ^ b)).sum

/-- `GS[c] <- SR[12c+11 : 12c]` for every c (R52). -/
def Receiver.latchIn (n : Nat) (r : Receiver) : Receiver := { r with gs := (List.range n).map (srEntry r.sr) }

/-- The bits of a byte in the order they are on the wire, bit 7 first (R50). -/
def byteBits (b : Byte) : List Bool := (List.range 8).map (fun i => b.getLsbD (7 - i))

/-- The bits of a byte string in the order they are on the wire (R50). -/
def wireBits (bytes : List Byte) : List Bool := bytes.flatMap byteBits

/-- What one operation does to the receiver. It takes the data level at the first half of a shift-clock pulse and copies
at the first half of a latch pulse; every bit of a bus write is shifted in. Whether it sees the status exchanges is in
no source (R116): `seesPolls` says so (log entry 18). -/
def Receiver.onOp (n : Nat) (seesPolls : Bool) (r : Receiver) : Op → Receiver
  | .pinSet .data .low => { r with dataIn := false }
  | .pinSet .data .high => { r with dataIn := true }
  | .pinSet .sclk .high => r.shiftIn n r.dataIn
  | .pinSet .latch .high => r.latchIn n
  | .busWrite bytes => (wireBits bytes).foldl (Receiver.shiftIn n) r
  | .busTransfer bytes => if seesPolls then (wireBits bytes).foldl (Receiver.shiftIn n) r else r
  | _ => r

/-- The receiver after a list of operations. -/
def Receiver.onOps (n : Nat) (seesPolls : Bool) (r : Receiver) (ops : List Op) : Receiver :=
  ops.foldl (Receiver.onOp n seesPolls) r

end Sys2Proof.Machine
end

