-- ==== Sys2Proof/Safety.lean ====
section
/-! DEFINITION. The terms in which claims speak of runs: runs of several steps, the answers a run is given, the trace of
a list of operations, and the invariants of the machine. -/

namespace Sys2Proof.Machine

/-- `k` steps, if none of them stops. -/
def runSteps : Nat → State → Host.Outcome State Fault Refusal
  | 0, s => .next s
  | k + 1, s =>
    match step s with
    | .next t => runSteps k t
    | .fault f => .fault f
    | .refused r => .refused r

/-- The next `k` answers of the environment and what it answers after them; `none` if it has not that many. -/
def takeAnswers : Nat → Env → Option (List Answer × Env)
  | 0, e => some ([], e)
  | k + 1, e =>
    match nextAnswer e with
    | none => none
    | some (a, e1) =>
      match takeAnswers k e1 with
      | none => none
      | some (as, e2) => some (a :: as, e2)

/-- The trace of operations that get these answers, in order (R14). -/
def traced (ops : List Op) (as : List Answer) : List TraceEntry :=
  List.zipWith (fun op a => ⟨op, replyTo op a⟩) ops as

/-- The second byte of an answer, the status byte of a status exchange (R108). -/
def statusByte : Answer → Byte
  | .ok _ rx1 => rx1
  | .err => 0

/-- The answers let an UPDATE go on: each is Ok, and in a framed UPDATE, whose operations 3, 4, … are its status polls,
the status says "in progress" up to the last of `polls` polls and not in that one (R108). -/
def answersFit (cfg : Config) (polls : Nat) (as : List Answer) : Prop :=
  ∀ i a, as[i]? = some a →
    a.isOk = true ∧
    (polled cfg = true → 3 ≤ i → i < 3 + polls →
      writeInProgress cfg (statusByte a) = decide (i + 1 < 3 + polls))

/-- The signals that exist as digital outputs, or as a blank line of either kind, under a configuration (R6): those
that have a shadow level (R28). -/
def ownsOutput (cfg : Config) : Signal → Bool
  | .data => decide (cfg.strategy ≠ .C)
  | .sclk => decide (cfg.strategy ≠ .C)
  | .latch => true
  | .blank => true
  | .gsclk => decide (cfg.strategy = .A)
  | .bus => false

/-- Is the operation one on a signal that exists, in the way it exists (R6, R10)? -/
def opAllowed (cfg : Config) : Op → Bool
  | .pinSet .blank _ => decide (cfg.blankKind = .pin)
  | .pinSet s _ => ownsOutput cfg s
  | .genDuty s _ => decide (s = .blank) && decide (cfg.blankKind = .generator)
  | .genStart s _ _ => decide (s = .gsclk) && decide (cfg.strategy ≠ .A)
  | .busOpen _ => decide (cfg.strategy = .C)
  | .busWrite _ => decide (cfg.strategy = .C)
  | .busTransfer _ => decide (cfg.strategy = .C)

/-- Is the position one that the configured strategy has (R27), and is the frame being sent the packed buffer (R54)? -/
def posAllowed (cfg : Config) (buf : Memory) : Pos → Bool
  | .init .data => decide (cfg.strategy ≠ .C)
  | .init .sclk => decide (cfg.strategy ≠ .C)
  | .init .latch => true
  | .init .gsclk => decide (cfg.strategy = .A)
  | .init .blank => true
  | .init .genStart => decide (cfg.strategy ≠ .A)
  | .init .busOpen => decide (cfg.strategy = .C)
  | .blankOff => true
  | .tick t .data => decide (cfg.strategy = .A) && decide (t < Config.gsTicks) && decide (t ≤ nbits cfg.n)
  | .tick t .sclkHigh => decide (cfg.strategy = .A) && decide (t < Config.gsTicks) && decide (t < nbits cfg.n)
  | .tick t .sclkLow => decide (cfg.strategy = .A) && decide (t < Config.gsTicks) && decide (t < nbits cfg.n)
  | .tick t .gsclkHigh => decide (cfg.strategy = .A) && decide (t < Config.gsTicks)
  | .tick t .gsclkLow => decide (cfg.strategy = .A) && decide (t < Config.gsTicks)
  | .bit k _ => decide (cfg.strategy = .B) && decide (k < nbits cfg.n)
  | .dataLow => decide (cfg.strategy = .B)
  | .wren f => decide (cfg.strategy = .C) && decide (cfg.framing = .wrenPoll) && decide (f = pack cfg.n buf)
  | .frame f => decide (cfg.strategy = .C) && decide (f = pack cfg.n buf)
  | .poll _ => decide (cfg.strategy = .C) && decide (cfg.framing = .wrenPoll)
  | .latchHigh => true
  | .latchLow => true
  | .blankOn => true

/-- An INIT has succeeded since reset and the engine is usable: phase READY, or an UPDATE is running (R23, R24). -/
def inService (s : State) : Prop :=
  s.phase = .ready ∨ ∃ p, s.seq = some p ∧ inInit p = false

/-- What holds of every state a run reaches. -/
structure Inv (s : State) : Prop where
  /-- The buffer is in its canonical form, the model's (log entry 8). -/
  canonical : s.buf.wf = true
  /-- Only channels 0 to N-1 exist (R40). -/
  inRange : s.buf.below s.cfg.n = true
  /-- There is a sequencer position exactly in BUSY (DEDUCED from R27, log entries 11 and 13). -/
  busyPos : s.phase = .busy ↔ s.seq.isSome = true
  /-- The position is one of the configured strategy (R6, R27). -/
  posOk : ∀ p, s.seq = some p → posAllowed s.cfg s.buf p = true
  /-- A fault is recorded exactly in FAULTED (R25, R121). -/
  faultedCause : s.phase = .faulted ↔ s.fault.cause ≠ .none
  /-- The info is 0 but for INDEX_OOB (R25). -/
  infoZero : s.fault.cause ≠ .indexOob → s.fault.info = 0
  /-- The info of INDEX_OOB is an index out of range (R122). -/
  infoOob : s.fault.cause = .indexOob → s.cfg.n ≤ s.fault.info.toNat
  /-- READY and BUSY are reached only with a valid configuration (R80, R81). -/
  configOk : s.phase = .ready ∨ s.phase = .busy → configValid s.cfg = true
  /-- In service, strategies B and C have their generator running (R83, R84). -/
  generatorRuns : inService s → s.cfg.strategy ≠ .A → s.genOn = true
  /-- INIT opens the bus only after it has started the generator (R84). -/
  generatorFirst : s.seq = some (.init .busOpen) → s.genOn = true
  /-- In service, strategy C has its bus open (R84). -/
  busRuns : inService s → s.cfg.strategy = .C → s.busOpen = true
  /-- There is a greyscale generator only in strategies B and C (R6). -/
  generatorExists : s.genOn = true → s.cfg.strategy ≠ .A
  /-- There is a bus only in strategy C (R6). -/
  busExists : s.busOpen = true → s.cfg.strategy = .C
  /-- An output that the strategy does not have stands at UNKNOWN, the model's choice (log entry 9). -/
  levelsOwned : ∀ sig, ownsOutput s.cfg sig = false → s.lvl.get sig = .unknown

/-- BLANK has been driven to OFF and stays there from the second operation of an UPDATE to its last (R101, R110,
R150). -/
def blankHeldOff (s : State) : Prop :=
  ∀ p, s.seq = some p → inInit p = false → p ≠ .blankOff → s.lvl.blank = .driven (offLevel s.cfg)

/-- While SCLK is pulsed for a stream bit, DATA is driven to that bit (R103, R104, R105). -/
def dataHeld (s : State) : Prop :=
  (∀ t, s.seq = some (.tick t .sclkHigh) ∨ s.seq = some (.tick t .sclkLow) →
    s.lvl.data = .driven (Level.ofBit (streamBit s.cfg.n s.buf t))) ∧
  (∀ k, s.seq = some (.bit k .sclkHigh) ∨ s.seq = some (.bit k .sclkLow) →
    s.lvl.data = .driven (Level.ofBit (streamBit s.cfg.n s.buf k)))

end Sys2Proof.Machine
end

