-- ==== Sys2Proof/Certificates/Slice0/Obligations.lean ====
section
/-! DEFINITION. The statements about the engine, one `Obligations.<Name>` each, listed in OBLIGATIONS.json. Statements
hold for every configuration: the configuration is a field of the state they quantify over.

What the model chose shows in every statement about a step, and no rule is cited for it: the grain of a step (log entry
3), the answers in `env` (4), the words in `offers` (5), the reset line (6), the observation in `traceRev` and
`responsesRev` (7), and that a response clears `seq` (13). -/

open Sys2Proof Sys2Proof.Machine

/-- R35: the state after reset, for any configuration. -/
def Obligations.ResetLeavesTableValues : Prop :=
  ∀ cfg : Config,
    (∀ i, (State.resetFor cfg).buf.read i = 0) ∧
    (State.resetFor cfg).phase = .uninit ∧
    (State.resetFor cfg).fault = ⟨.none, 0⟩ ∧
    (State.resetFor cfg).resp = none ∧
    (State.resetFor cfg).seq = none ∧
    (∀ sig, (State.resetFor cfg).lvl.get sig = .unknown) ∧
    (State.resetFor cfg).genOn = false ∧
    (State.resetFor cfg).busOpen = false

/-- R140, R141: reset in any state, also with a command running. Keeping the host's words, the environment's answers
and the observation is the model's choice (log entry 6). -/
def Obligations.ResetFromAnyState : Prop :=
  (∀ s : State, s.resetLine = true →
    ∃ t, step s = .next t ∧
      (∀ i, t.buf.read i = 0) ∧ t.phase = .uninit ∧ t.fault = ⟨.none, 0⟩ ∧ t.resp = none ∧ t.seq = none ∧
      (∀ sig, t.lvl.get sig = .unknown) ∧ t.genOn = false ∧ t.busOpen = false ∧
      t.responses = s.responses ∧ t.trace = s.trace ∧
      t.cfg = s.cfg ∧ t.offers = s.offers ∧ t.env = s.env ∧ t.resetLine = false) ∧
  (∀ s t : State, s.resetLine = false → s.phase = .faulted → step s = .next t → t.phase = .faulted)

/-- R72, R61: words written out from the encodings of R62 to R67 and from the table of 95_test_vectors.md 2.1. -/
def Obligations.WrittenWordsDecode : Prop :=
  decode 0x10000000 = .ok .init ∧
  decode 0x20030908 = .ok (.setChannel 3 0x0908) ∧
  decode 0x2FFFFFFF = .ok (.setChannel 4095 0xFFFF) ∧
  decode 0x3000FFFF = .ok (.setAll 0xFFFF) ∧
  decode 0x40000000 = .ok .clear ∧
  decode 0x50000000 = .ok .update ∧
  decode 0x60030000 = .ok (.readChannel 3) ∧
  decode 0x00000000 = .error (.reservedOp 0x0) ∧
  decode 0x10000001 = .error (.mustBeZero 0x1) ∧
  decode 0x30010000 = .error (.mustBeZero 0x3) ∧
  decode 0x60030001 = .error (.mustBeZero 0x6) ∧
  decode 0xF0000000 = .error (.reservedOp 0xF)

/-- R60 to R67, R72: every well-formed command's word decodes to that command. -/
def Obligations.DecodeOfEncodeIsIdentity : Prop :=
  ∀ i : Instr, i.wellFormed = true → decode (encode i) = .ok i

/-- R72: a word that decodes is the word of the command it decodes to, which is well-formed: each word has one meaning
and each meaning one word. -/
def Obligations.EncodeOfDecodeIsIdentity : Prop :=
  ∀ (w : Word) (i : Instr), decode w = .ok i → encode i = w ∧ i.wellFormed = true

/-- R72, R73: decoding is the table of R61 with the matches and masks of R62 to R67; at most one row matches; operands
are the plain fields. -/
def Obligations.DecodeFollowsOpcodeRows : Prop :=
  (∀ (w : Word) (i : Instr), decode w = .ok i → i.row ∈ opcodeRows ∧ w &&& i.row.mask = i.row.pattern) ∧
  (∀ w : Word, (∃ e, decode w = .error e) ↔ ∀ r ∈ opcodeRows, w &&& r.mask ≠ r.pattern) ∧
  (∀ (w : Word) (r r' : OpcodeRow), r ∈ opcodeRows → r' ∈ opcodeRows →
    w &&& r.mask = r.pattern → w &&& r'.mask = r'.pattern → r = r') ∧
  (∀ (w : Word) (idx : Nat) (val : Entry), decode w = .ok (.setChannel idx val) →
    idx = w.toNat / 65536 % 4096 ∧ val.toNat = w.toNat % 65536) ∧
  (∀ (w : Word) (val : Entry), decode w = .ok (.setAll val) → val.toNat = w.toNat % 65536) ∧
  (∀ (w : Word) (idx : Nat), decode w = .ok (.readChannel idx) → idx = w.toNat / 65536 % 4096)

/-- R75: outside BUSY and with no reset, a step whose offered word decodes to `i` is `exec i` of the state, which takes
the word; it adds nothing. The word is off the port afterwards, in every case. -/
def Obligations.StepRunsTheDecodedCommand : Prop :=
  ∀ (s : State) (w : Word) (ws : List Word) (i : Instr),
    s.resetLine = false → s.phase ≠ .busy → s.offers = w :: ws → decode w = .ok i →
    step s = exec i s ∧ ∃ t, exec i s = .next t ∧ t.offers = ws

/-- R75, R121, R122: an illegal word in UNINIT or READY with no fault recorded raises Fault(ILLEGAL_CMD) and does
nothing else. -/
def Obligations.IllegalWordRaisesFault : Prop :=
  ∀ (s : State) (w : Word) (ws : List Word) (e : IllegalWord),
    s.resetLine = false → s.phase = .uninit ∨ s.phase = .ready → s.fault.cause = .none →
    s.offers = w :: ws → decode w = .error e →
    step s = .next { s with
      offers := ws, fault := ⟨.illegalCmd, 0⟩, phase := .faulted, resp := some 0xF0010000#32,
      responsesRev := 0xF0010000#32 :: s.responsesRev, seq := none }

/-- R121, R75: while FAULTED every word, legal or not, INIT included, is answered with the stored fault and has no
other effect. -/
def Obligations.FaultedAnswersEveryWord : Prop :=
  ∀ (s : State) (w : Word) (ws : List Word),
    s.resetLine = false → s.phase = .faulted → s.offers = w :: ws →
    step s = .next { s with
      offers := ws, seq := none,
      resp := some (0xF#4 ++ 0#4 ++ causeCode s.fault.cause ++ s.fault.info),
      responsesRev := (0xF#4 ++ 0#4 ++ causeCode s.fault.cause ++ s.fault.info) :: s.responsesRev }

/-- R122: a legal command other than INIT in UNINIT, with no fault recorded, raises Fault(NOT_INIT) and does nothing
else: buffer, outputs and trace are as before. -/
def Obligations.CommandBeforeInitRaisesFault : Prop :=
  ∀ (s : State) (i : Instr), i ≠ .init → s.phase = .uninit → s.fault.cause = .none →
    exec i s = .next { s with
      offers := s.offers.tail, fault := ⟨.notInit, 0⟩, phase := .faulted, resp := some 0xF0020000#32,
      responsesRev := 0xF0020000#32 :: s.responsesRev, seq := none }

/-- R90: SET_CHANNEL. Its word; in range it writes all 16 bits of one entry and answers OK; out of range it raises
Fault(INDEX_OOB) with the index and the buffer is unchanged. Everything else is unchanged. -/
def Obligations.SetChannelWritesOneEntry : Prop :=
  (∀ (idx : Nat) (val : Entry), idx ≤ 4095 →
    (encode (.setChannel idx val)).toNat = 0x20000000 + idx * 65536 + val.toNat) ∧
  (∀ (s : State) (idx : Nat) (val : Entry), s.phase = .ready → s.buf.wf = true → idx < s.cfg.n →
    ∃ buf', exec (.setChannel idx val) s = .next { s with
        offers := s.offers.tail, buf := buf', resp := some 0#32, responsesRev := 0#32 :: s.responsesRev,
        seq := none } ∧
      buf'.read idx = val ∧ ∀ j, j ≠ idx → buf'.read j = s.buf.read j) ∧
  (∀ (s : State) (idx : Nat) (val : Entry), s.phase = .ready → s.fault.cause = .none → s.cfg.n ≤ idx → idx ≤ 4095 →
    exec (.setChannel idx val) s = .next { s with
      offers := s.offers.tail, fault := ⟨.indexOob, BitVec.ofNat 16 idx⟩, phase := .faulted,
      resp := some (0xF003#16 ++ BitVec.ofNat 16 idx),
      responsesRev := (0xF003#16 ++ BitVec.ofNat 16 idx) :: s.responsesRev, seq := none })

/-- R91: SET_ALL. Its word; it writes all 16 bits of every entry and answers OK. Everything else is unchanged. -/
def Obligations.SetAllWritesEveryEntry : Prop :=
  (∀ val : Entry, (encode (.setAll val)).toNat = 0x30000000 + val.toNat) ∧
  (∀ (s : State) (val : Entry), s.phase = .ready →
    ∃ buf', exec (.setAll val) s = .next { s with
        offers := s.offers.tail, buf := buf', resp := some 0#32, responsesRev := 0#32 :: s.responsesRev,
        seq := none } ∧
      ∀ i, i < s.cfg.n → buf'.read i = val)

/-- R92: CLEAR. Its word; it sets every entry to 0 and answers OK; it does exactly what SET_ALL 0 does, in every state;
its word is another. -/
def Obligations.ClearSetsEveryEntryToZero : Prop :=
  (encode .clear).toNat = 0x40000000 ∧
  (∀ s : State, s.phase = .ready →
    ∃ buf', exec .clear s = .next { s with
        offers := s.offers.tail, buf := buf', resp := some 0#32, responsesRev := 0#32 :: s.responsesRev,
        seq := none } ∧
      ∀ i, i < s.cfg.n → buf'.read i = 0) ∧
  (∀ s : State, exec .clear s = exec (.setAll 0) s) ∧ encode .clear ≠ encode (.setAll 0)

/-- R93: READ_CHANNEL. Its word; in range it answers OK with all 16 bits of the entry and changes nothing else; out of
range it raises Fault(INDEX_OOB). -/
def Obligations.ReadChannelReturnsTheEntry : Prop :=
  (∀ idx : Nat, idx ≤ 4095 → (encode (.readChannel idx)).toNat = 0x60000000 + idx * 65536) ∧
  (∀ (s : State) (idx : Nat), s.phase = .ready → idx < s.cfg.n →
    exec (.readChannel idx) s = .next { s with
      offers := s.offers.tail, resp := some (0#16 ++ s.buf.read idx),
      responsesRev := (0#16 ++ s.buf.read idx) :: s.responsesRev, seq := none }) ∧
  (∀ (s : State) (idx : Nat), s.phase = .ready → s.fault.cause = .none → s.cfg.n ≤ idx → idx ≤ 4095 →
    exec (.readChannel idx) s = .next { s with
      offers := s.offers.tail, fault := ⟨.indexOob, BitVec.ofNat 16 idx⟩, phase := .faulted,
      resp := some (0xF003#16 ++ BitVec.ofNat 16 idx),
      responsesRev := (0xF003#16 ++ BitVec.ofNat 16 idx) :: s.responsesRev, seq := none })

/-- R94, R43: no buffer command issues an operation or changes an output, the generator or the bus, whatever the state
and the operands. -/
def Obligations.BufferCommandsTouchNoOutput : Prop :=
  ∀ (i : Instr) (s t : State), i ≠ .init → i ≠ .update → exec i s = .next t →
    t.trace = s.trace ∧ t.lvl = s.lvl ∧ t.genOn = s.genOn ∧ t.busOpen = s.busOpen ∧ t.cfg = s.cfg ∧ t.env = s.env

/-- R95, first law: SET_CHANNEL i, v and then READ_CHANNEL i, offered as words, answers with data v; no other entry has
changed. -/
def Obligations.ReadAfterSetAnswersTheValue : Prop :=
  ∀ (s : State) (i : Nat) (v : Entry) (ws : List Word),
    s.resetLine = false → s.phase = .ready → s.buf.wf = true → i < s.cfg.n → i ≤ 4095 →
    s.offers = encode (.setChannel i v) :: encode (.readChannel i) :: ws →
    ∃ t, runSteps 2 s = .next t ∧ t.phase = .ready ∧ t.offers = ws ∧
      t.responses = s.responses ++ [0#32, 0#16 ++ v] ∧
      t.buf.read i = v ∧ ∀ j, j ≠ i → t.buf.read j = s.buf.read j

/-- R95, second law: the words SET_CHANNEL 0, v to SET_CHANNEL N-1, v leave the buffer, and all else but the answers
given, as SET_ALL v does. -/
def Obligations.SetAllEqualsSettingEveryChannel : Prop :=
  ∀ (s : State) (v : Entry) (ws : List Word),
    Inv s → s.resetLine = false → s.phase = .ready →
    ∃ t u,
      runSteps s.cfg.n { s with offers := (List.range s.cfg.n).map (fun i => encode (.setChannel i v)) ++ ws } = .next t ∧
      runSteps 1 { s with offers := encode (.setAll v) :: ws } = .next u ∧
      t = { u with responsesRev := t.responsesRev } ∧
      t.responses = s.responses ++ List.replicate s.cfg.n 0#32 ∧ u.responses = s.responses ++ [0#32]

/-- R124, R80: INIT with an invalid configuration, in UNINIT or READY: phase UNINIT, response CONFIG_ERROR, no operation,
buffer as it was. Everything else is unchanged. -/
def Obligations.InvalidConfigurationEndsInit : Prop :=
  ∀ s : State, s.phase = .uninit ∨ s.phase = .ready → configValid s.cfg = false →
    exec .init s = .next { s with
      offers := s.offers.tail, phase := .uninit, resp := some 0x20000000#32,
      responsesRev := 0x20000000#32 :: s.responsesRev, seq := none }

/-- R81: what a valid configuration is. -/
def Obligations.ConfigurationChecksOfInit : Prop :=
  ∀ cfg : Config, configValid cfg = true ↔
    (1 ≤ cfg.n ∧ cfg.n ≤ 4096 ∧ (cfg.strategy = .A → cfg.n ≤ 341)) ∧
    (cfg.strategy = .B ∨ cfg.strategy = .C → 0 < cfg.gsFreq ∧ 0 < cfg.gsDuty ∧ cfg.gsDuty < 1) ∧
    (cfg.strategy = .C → 0 < cfg.busSpeed) ∧
    ((cfg.framing = .none ∨ cfg.strategy = .C) ∧ (cfg.framing = .wrenPoll → cfg.wipMask ≠ 0)) ∧
    (cfg.blankOffLevel = 0 ∨ cfg.blankOffLevel = 1)

/-- R80, R82, R83, R84: INIT with a valid configuration, in UNINIT or READY, every operation answered Ok: it is accepted,
issues the operations of `init_outputs` in the order of its strategy, and ends in READY with an all-zero buffer and the
response OK. Nothing else changes but the outputs, the generator and the bus. -/
def Obligations.InitRunsItsOperations : Prop :=
  ∀ (s : State) (as : List Answer) (rest : Env),
    s.phase = .uninit ∨ s.phase = .ready → s.resetLine = false → configValid s.cfg = true →
    takeAnswers (initOutputs s.cfg).length s.env = some (as, rest) → (∀ a ∈ as, a.isOk = true) →
    ∃ t u, exec .init s = .next t ∧ t.phase = .busy ∧ runSteps (initOutputs s.cfg).length t = .next u ∧
      u.trace = s.trace ++ traced (initOutputs s.cfg) as ∧
      (s.cfg.strategy = .A → initOutputs s.cfg =
        [.pinSet .data .low, .pinSet .sclk .low, .pinSet .latch .low, .pinSet .gsclk .low,
          blankSet s.cfg (offLevel s.cfg)]) ∧
      (s.cfg.strategy = .B → initOutputs s.cfg =
        [.pinSet .data .low, .pinSet .sclk .low, .pinSet .latch .low, blankSet s.cfg (offLevel s.cfg),
          .genStart .gsclk s.cfg.gsFreq s.cfg.gsDuty]) ∧
      (s.cfg.strategy = .C → initOutputs s.cfg =
        [.pinSet .latch .low, blankSet s.cfg (offLevel s.cfg), .genStart .gsclk s.cfg.gsFreq s.cfg.gsDuty,
          .busOpen s.cfg.busSpeed]) ∧
      u.phase = .ready ∧ u.resp = some 0#32 ∧ u.responses = s.responses ++ [0#32] ∧
      (∀ i, u.buf.read i = 0) ∧ u.fault = s.fault ∧ u.seq = none ∧
      u.cfg = s.cfg ∧ u.offers = s.offers.tail ∧ u.env = rest ∧ u.resetLine = false

/-- R87: the idle state after an INIT that succeeds; what the strategy does not drive, start or open is as it was. -/
def Obligations.InitLeavesOutputsIdle : Prop :=
  ∀ (s t u : State) (as : List Answer) (rest : Env),
    s.phase = .uninit ∨ s.phase = .ready → s.resetLine = false → configValid s.cfg = true →
    takeAnswers (initOutputs s.cfg).length s.env = some (as, rest) → (∀ a ∈ as, a.isOk = true) →
    exec .init s = .next t → runSteps (initOutputs s.cfg).length t = .next u →
    u.lvl.latch = .driven .low ∧
    (s.cfg.strategy = .A ∨ s.cfg.strategy = .B → u.lvl.data = .driven .low ∧ u.lvl.sclk = .driven .low) ∧
    (s.cfg.strategy = .A → u.lvl.gsclk = .driven .low) ∧
    u.lvl.blank = .driven (offLevel s.cfg) ∧
    (s.cfg.strategy = .B ∨ s.cfg.strategy = .C → u.genOn = true) ∧
    (s.cfg.strategy = .C → u.busOpen = true) ∧
    (s.cfg.strategy = .C → u.lvl.data = s.lvl.data ∧ u.lvl.sclk = s.lvl.sclk) ∧
    (s.cfg.strategy ≠ .A → u.lvl.gsclk = s.lvl.gsclk) ∧
    (s.cfg.strategy = .A → u.genOn = s.genOn) ∧
    (s.cfg.strategy ≠ .C → u.busOpen = s.busOpen)

/-- R85, R123: the first operation of INIT that is answered Err ends it: the earlier operations and that one are the
whole trace of the command, phase UNINIT, response IO_ERROR with the signal, buffer all zero, no fault recorded; an INIT
then offered starts from the first operation again. -/
def Obligations.InitStopsAtFirstError : Prop :=
  ∀ (s : State) (j : Nat) (op : Op) (as : List Answer) (rest : Env),
    s.phase = .uninit ∨ s.phase = .ready → s.resetLine = false → configValid s.cfg = true →
    (initOutputs s.cfg)[j]? = some op →
    takeAnswers (j + 1) s.env = some (as ++ [.err], rest) → (∀ a ∈ as, a.isOk = true) →
    ∃ t u, exec .init s = .next t ∧ runSteps (j + 1) t = .next u ∧
      u.trace = s.trace ++ traced ((initOutputs s.cfg).take j) as ++ [⟨op, .err⟩] ∧
      u.phase = .uninit ∧ u.resp = some (0x1#4 ++ sigCode op.signal ++ 0#24) ∧
      u.responses = s.responses ++ [0x1#4 ++ sigCode op.signal ++ 0#24] ∧
      (∀ i, u.buf.read i = 0) ∧ u.fault = s.fault ∧ u.seq = none ∧
      (∀ sig, (∃ l, op = .pinSet sig l) ∨ (∃ d, op = .genDuty sig d) → sig ≠ .bus → u.lvl.get sig = .unknown) ∧
      u.cfg = s.cfg ∧ u.offers = s.offers.tail ∧ u.env = rest ∧
      ∃ v, exec .init u = .next v ∧ v.phase = .busy ∧ v.seq = t.seq ∧ v.trace = u.trace

/-- R100 to R103, R105 to R110: UPDATE in READY, every operation answered Ok and, if framed, the status poll clearing
after `polls` polls: it is accepted, issues exactly the operations of R100 in order, and ends in READY with the response
OK. The buffer and everything else but the outputs are unchanged. -/
def Obligations.UpdateRunsItsOperations : Prop :=
  ∀ (s : State) (polls : Nat) (as : List Answer) (rest : Env),
    s.phase = .ready → s.resetLine = false → (polled s.cfg = true → 1 ≤ polls) →
    takeAnswers (updateOps s.cfg s.buf polls).length s.env = some (as, rest) → answersFit s.cfg polls as →
    ∃ t u, exec .update s = .next t ∧ t.phase = .busy ∧
      runSteps (updateOps s.cfg s.buf polls).length t = .next u ∧
      u.trace = s.trace ++ traced (updateOps s.cfg s.buf polls) as ∧
      u.phase = .ready ∧ u.resp = some 0#32 ∧ u.responses = s.responses ++ [0#32] ∧
      u.buf = s.buf ∧ u.fault = s.fault ∧ u.seq = none ∧ u.genOn = s.genOn ∧ u.busOpen = s.busOpen ∧
      u.cfg = s.cfg ∧ u.offers = s.offers.tail ∧ u.env = rest ∧ u.resetLine = false

/-- R115: the idle state after an UPDATE that completes; an output the strategy does not use keeps its level. -/
def Obligations.UpdateLeavesOutputsIdle : Prop :=
  ∀ (s t u : State) (polls : Nat) (as : List Answer) (rest : Env),
    s.phase = .ready → s.resetLine = false → configValid s.cfg = true → (polled s.cfg = true → 1 ≤ polls) →
    takeAnswers (updateOps s.cfg s.buf polls).length s.env = some (as, rest) → answersFit s.cfg polls as →
    exec .update s = .next t → runSteps (updateOps s.cfg s.buf polls).length t = .next u →
    u.lvl.blank = .driven (onLevel s.cfg) ∧ u.lvl.latch = .driven .low ∧
    (s.cfg.strategy = .A ∨ s.cfg.strategy = .B → u.lvl.data = .driven .low ∧ u.lvl.sclk = .driven .low) ∧
    (s.cfg.strategy = .A → u.lvl.gsclk = .driven .low) ∧
    (s.cfg.strategy = .C → u.lvl.data = s.lvl.data ∧ u.lvl.sclk = s.lvl.sclk) ∧
    (s.cfg.strategy ≠ .A → u.lvl.gsclk = s.lvl.gsclk)

/-- R111, R123: the first operation of an UPDATE that is answered Err ends it: nothing more is issued, phase READY,
response IO_ERROR with the signal, buffer unchanged, no fault recorded. -/
def Obligations.UpdateStopsAtFirstError : Prop :=
  ∀ (s : State) (polls j : Nat) (op : Op) (as : List Answer) (rest : Env),
    s.phase = .ready → s.resetLine = false → (polled s.cfg = true → 1 ≤ polls) →
    (updateOps s.cfg s.buf polls)[j]? = some op →
    takeAnswers (j + 1) s.env = some (as ++ [.err], rest) → answersFit s.cfg polls as →
    ∃ t u, exec .update s = .next t ∧ runSteps (j + 1) t = .next u ∧
      u.trace = s.trace ++ traced ((updateOps s.cfg s.buf polls).take j) as ++ [⟨op, .err⟩] ∧
      u.phase = .ready ∧ u.resp = some (0x1#4 ++ sigCode op.signal ++ 0#24) ∧
      u.responses = s.responses ++ [0x1#4 ++ sigCode op.signal ++ 0#24] ∧
      u.buf = s.buf ∧ u.fault = s.fault ∧ u.seq = none ∧ u.genOn = s.genOn ∧ u.busOpen = s.busOpen ∧
      (∀ sig, (∃ l, op = .pinSet sig l) ∨ (∃ d, op = .genDuty sig d) → sig ≠ .bus → u.lvl.get sig = .unknown) ∧
      u.cfg = s.cfg ∧ u.offers = s.offers.tail ∧ u.env = rest ∧ u.resetLine = false

/-- R112: after an UPDATE that failed, an UPDATE issued again whose operations are answered Ok issues the whole sequence
for the same buffer and completes. -/
def Obligations.RetriedUpdateCompletes : Prop :=
  ∀ (s : State) (polls j polls' : Nat) (op : Op) (as as' : List Answer) (mid rest : Env),
    s.phase = .ready → s.resetLine = false → (polled s.cfg = true → 1 ≤ polls ∧ 1 ≤ polls') →
    (updateOps s.cfg s.buf polls)[j]? = some op →
    takeAnswers (j + 1) s.env = some (as ++ [.err], mid) → answersFit s.cfg polls as →
    takeAnswers (updateOps s.cfg s.buf polls').length mid = some (as', rest) → answersFit s.cfg polls' as' →
    ∃ t u v w, exec .update s = .next t ∧ runSteps (j + 1) t = .next u ∧ exec .update u = .next v ∧
      runSteps (updateOps s.cfg s.buf polls').length v = .next w ∧
      w.trace = u.trace ++ traced (updateOps s.cfg s.buf polls') as' ∧
      w.phase = .ready ∧ w.resp = some 0#32 ∧ w.buf = s.buf

/-- R125, R108: a status poll whose exchanges all answer "write in progress" goes on for as many steps as one likes: phase
BUSY, no response, no word accepted, one exchange more in the trace for each step. -/
def Obligations.StatusPollHasNoBound : Prop :=
  ∀ (s : State) (p k : Nat) (as : List Answer) (rest : Env),
    s.phase = .busy → s.seq = some (.poll p) → s.resetLine = false →
    takeAnswers k s.env = some (as, rest) →
    (∀ a ∈ as, a.isOk = true ∧ writeInProgress s.cfg (statusByte a) = true) →
    ∃ u, runSteps k s = .next u ∧ u.phase = .busy ∧ u.seq = some (.poll (p + k)) ∧
      u.responses = s.responses ∧ u.resp = s.resp ∧ u.offers = s.offers ∧ u.buf = s.buf ∧
      u.trace = s.trace ++ traced (List.replicate k (.busTransfer [s.cfg.statusCmd, 0x00])) as

/-- R113: the operation counts of an UPDATE under a valid configuration. -/
def Obligations.UpdateOperationCounts : Prop :=
  ∀ (cfg : Config) (buf : Memory) (polls : Nat), configValid cfg = true →
    (cfg.strategy = .A → (updateOps cfg buf polls).length = 36 * cfg.n + 8197) ∧
    (cfg.strategy = .B → (updateOps cfg buf polls).length = 36 * cfg.n + 5) ∧
    (cfg.strategy = .C → cfg.framing = .none → (updateOps cfg buf polls).length = 5) ∧
    (cfg.strategy = .C → cfg.framing = .wrenPoll → (updateOps cfg buf polls).length = 6 + polls)

/-- R103 (and R104, which the spec derives from it): the pulses of a strategy-A UPDATE: exactly 4096 of GSCLK, exactly 12N of SCLK, those only in the first
12N ticks, each after DATA is driven to its stream bit and before the GSCLK pulse of its tick; DATA is driven low in tick
12N and not driven in a later tick. -/
def Obligations.StrategyAPulses : Prop :=
  ∀ (cfg : Config) (buf : Memory) (polls : Nat), configValid cfg = true → cfg.strategy = .A →
    (updateOps cfg buf polls).count (.pinSet .gsclk .high) = 4096 ∧
    (updateOps cfg buf polls).count (.pinSet .gsclk .low) = 4096 ∧
    (updateOps cfg buf polls).count (.pinSet .sclk .high) = 12 * cfg.n ∧
    (updateOps cfg buf polls).count (.pinSet .sclk .low) = 12 * cfg.n ∧
    updateOps cfg buf polls =
      blankSet cfg (offLevel cfg) ::
        ((List.range 4096).flatMap (fun t =>
          if t < 12 * cfg.n then
            [.pinSet .data (Level.ofBit (streamBit cfg.n buf t)), .pinSet .sclk .high, .pinSet .sclk .low,
              .pinSet .gsclk .high, .pinSet .gsclk .low]
          else if t = 12 * cfg.n then [.pinSet .data .low, .pinSet .gsclk .high, .pinSet .gsclk .low]
          else [.pinSet .gsclk .high, .pinSet .gsclk .low]) ++
        [.pinSet .latch .high, .pinSet .latch .low, blankSet cfg (onLevel cfg)])

/-- R105 to R110: the operations of an UPDATE of strategy B and of strategy C, in full. -/
def Obligations.StrategyBAndCOperations : Prop :=
  ∀ (cfg : Config) (buf : Memory) (polls : Nat),
    (cfg.strategy = .B → updateOps cfg buf polls =
      blankSet cfg (offLevel cfg) ::
        ((List.range (12 * cfg.n)).flatMap (fun k =>
          [.pinSet .data (Level.ofBit (streamBit cfg.n buf k)), .pinSet .sclk .high, .pinSet .sclk .low]) ++
        [.pinSet .data .low, .pinSet .latch .high, .pinSet .latch .low, blankSet cfg (onLevel cfg)])) ∧
    (cfg.strategy = .C → cfg.framing = .none → updateOps cfg buf polls =
      [blankSet cfg (offLevel cfg), .busWrite (pack cfg.n buf), .pinSet .latch .high, .pinSet .latch .low,
        blankSet cfg (onLevel cfg)]) ∧
    (cfg.strategy = .C → cfg.framing = .wrenPoll → updateOps cfg buf polls =
      [blankSet cfg (offLevel cfg), .busWrite [cfg.wrenCmd], .busWrite (pack cfg.n buf)] ++
        List.replicate polls (.busTransfer [cfg.statusCmd, 0x00]) ++
        [.pinSet .latch .high, .pinSet .latch .low, blankSet cfg (onLevel cfg)])

/-- R13: the two blank levels, and the one operation that sets the blank line, of either kind. -/
def Obligations.BlankSetIsOneOperation : Prop :=
  ∀ cfg : Config,
    (cfg.blankOffLevel = 0 → offLevel cfg = .low ∧ onLevel cfg = .high) ∧
    (cfg.blankOffLevel = 1 → offLevel cfg = .high ∧ onLevel cfg = .low) ∧
    (cfg.blankKind = .pin → ∀ l, blankSet cfg l = .pinSet .blank l) ∧
    (cfg.blankKind = .generator → blankSet cfg .high = .genDuty .blank 1 ∧ blankSet cfg .low = .genDuty .blank 0)

/-- R114: in strategies B and C no UPDATE issues an operation on GSCLK; in strategy A no operation on GSCLK is issued by
a step of any command but inside the transfer of an UPDATE and in INIT. -/
def Obligations.GreyscaleClockUntouched : Prop :=
  (∀ (cfg : Config) (buf : Memory) (polls : Nat), cfg.strategy ≠ .A →
    ∀ op ∈ updateOps cfg buf polls, op.signal ≠ .gsclk) ∧
  (∀ (cfg : Config) (buf : Memory) (p : Pos), posAllowed cfg buf p = true → inInit p = false →
    (posOp cfg buf p).signal = .gsclk → cfg.strategy = .A ∧ ∃ t e, p = .tick t e)

/-- R45: the stream bits, channel by channel from the last, most significant of the 12 first. -/
def Obligations.StreamOrder : Prop :=
  ∀ (n : Nat) (buf : Memory) (c b : Nat), c < n → b < 12 →
    (stream n buf).length = 12 * n ∧
    (stream n buf)[12 * (n - 1 - c) + (11 - b)]? = some ((buf.read c).getLsbD b)

/-- R46, R47, R49: the frame has ceil(12N / 8) bytes, stream bit k in bit 7 - (k mod 8) of byte k div 8, and, when N is
odd, the low 4 bits of the last byte 0; when N is even it has no other bit. -/
def Obligations.FrameCarriesTheStream : Prop :=
  ∀ (n : Nat) (buf : Memory),
    (pack n buf).length = (12 * n + 7) / 8 ∧
    (n % 2 = 0 → (pack n buf).length = 3 * n / 2) ∧ (n % 2 = 1 → (pack n buf).length = (3 * n + 1) / 2) ∧
    (∀ k, k < 12 * n → ((pack n buf).getD (k / 8) 0).getLsbD (7 - k % 8) = streamBit n buf k) ∧
    (n % 2 = 1 → ∀ b, b < 4 → ((pack n buf).getD ((pack n buf).length - 1) 0).getLsbD b = false) ∧
    (n % 2 = 0 → 8 * (pack n buf).length = 12 * n)

/-- R48: bits 15 to 12 of an entry reach neither the stream nor the frame, nor any operation of an UPDATE. -/
def Obligations.HighBitsAreNeverSent : Prop :=
  ∀ (cfg : Config) (b1 b2 : Memory) (polls : Nat),
    (∀ i, i < cfg.n → (b1.read i).extractLsb' 0 12 = (b2.read i).extractLsb' 0 12) →
    (∀ k, k < 12 * cfg.n → streamBit cfg.n b1 k = streamBit cfg.n b2 k) ∧
    pack cfg.n b1 = pack cfg.n b2 ∧
    updateOps cfg b1 polls = updateOps cfg b2 polls

/-- R51: unpacking the frame gives back the low 12 bits of every entry. -/
def Obligations.UnpackingTheFrameGivesTheEntries : Prop :=
  ∀ (n : Nat) (buf : Memory) (c : Nat), c < n → unpackEntry n (pack n buf) c = (buf.read c).toNat % 4096

/-- R116, R52: under the receiver model (whose reading is the model's, log entry 18), whatever the receiver held, the
operations of a complete UPDATE of strategy A or B, or of strategy C with N even, unframed or with unseen status exchanges,
leave `GS[c]` equal to bits 11:0 of channel c; strategy C with N odd leaves the shift register displaced by the 4 padding
bits; a receiver that sees the status exchanges ends displaced by 16 bits for each poll. -/
def Obligations.UpdateDeliversTheBuffer : Prop :=
  ∀ (cfg : Config) (buf : Memory) (polls : Nat) (r : Receiver), configValid cfg = true →
    (cfg.strategy = .A ∨ cfg.strategy = .B ∨ (cfg.strategy = .C ∧ cfg.n % 2 = 0) →
      (r.onOps cfg.n false (updateOps cfg buf polls)).gs =
        (List.range cfg.n).map (fun c => (buf.read c).toNat % 4096)) ∧
    (cfg.strategy = .C → cfg.n % 2 = 1 →
      (r.onOps cfg.n false (updateOps cfg buf polls)).sr =
        (List.replicate 4 false ++ (stream cfg.n buf).reverse).take (12 * cfg.n)) ∧
    (cfg.strategy = .C → cfg.framing = .wrenPoll → cfg.n % 2 = 0 → ∀ j, 16 * polls + j < 12 * cfg.n →
      (r.onOps cfg.n true (updateOps cfg buf polls)).sr[16 * polls + j]? = (stream cfg.n buf).reverse[j]?)

/-- R28: what an answer does to the shadow levels, at every position: the output a PinSet or GenDuty addresses takes the
level on Ok and UNKNOWN on Err, every other output keeps its own. -/
def Obligations.LevelsFollowTheAnswers : Prop :=
  ∀ (p : Pos) (a : Answer) (s : State) (sig : Signal), sig ≠ .bus →
    (∀ l, posOp s.cfg s.buf p = .pinSet sig l →
      (transact p a s).lvl.get sig = if a.isOk then .driven l else .unknown) ∧
    (∀ l, posOp s.cfg s.buf p = .genDuty sig (dutyOf l) →
      (transact p a s).lvl.get sig = if a.isOk then .driven l else .unknown) ∧
    ((∀ l, posOp s.cfg s.buf p ≠ .pinSet sig l) → (∀ d, posOp s.cfg s.buf p ≠ .genDuty sig d) →
      (transact p a s).lvl.get sig = s.lvl.get sig)

/-- R148: a pulse whose second half fails leaves the output's level UNKNOWN, and the command issues nothing more. -/
def Obligations.InterruptedPulseLeavesUnknown : Prop :=
  ∀ (s : State) (p : Pos) (sig : Signal) (rx0 rx1 : Byte) (rest : Env),
    s.phase = .busy → s.resetLine = false → s.seq = some p → inInit p = false →
    posOp s.cfg s.buf p = .pinSet sig .high → sig = .sclk ∨ sig = .gsclk ∨ sig = .latch →
    takeAnswers 2 s.env = some ([.ok rx0 rx1, .err], rest) →
    ∃ u, runSteps 2 s = .next u ∧ u.lvl.get sig = .unknown ∧ u.phase = .ready ∧ u.seq = none ∧
      u.trace = s.trace ++ [⟨.pinSet sig .high, .ok⟩, ⟨.pinSet sig .low, .err⟩]

/-- R23, R24: the phase transitions of a step without reset: what leads from UNINIT and from READY to each other phase, and
what a running command can end in, with its response. That a buffer command passes BUSY within the step that accepts it is
the model's grain of a step (log entry 3). -/
def Obligations.PhaseTransitions : Prop :=
  ∀ s t : State, s.resetLine = false → step s = .next t →
    (s.phase = .faulted → t.phase = .faulted) ∧
    (s.phase = .uninit → t.phase ≠ .ready ∧
      (t.phase = .busy ↔ ∃ w ws, s.offers = w :: ws ∧ decode w = .ok .init ∧ configValid s.cfg = true) ∧
      (t.phase = .faulted ↔ ∃ w ws, s.offers = w :: ws ∧
        ((∃ e, decode w = .error e) ∨ ∃ i, decode w = .ok i ∧ i ≠ .init))) ∧
    (s.phase = .ready →
      (t.phase = .uninit ↔ ∃ w ws, s.offers = w :: ws ∧ decode w = .ok .init ∧ configValid s.cfg = false) ∧
      (t.phase = .busy ↔ ∃ w ws, s.offers = w :: ws ∧
        ((decode w = .ok .init ∧ configValid s.cfg = true) ∨ decode w = .ok .update)) ∧
      (t.phase = .faulted ↔ ∃ w ws, s.offers = w :: ws ∧
        ((∃ e, decode w = .error e) ∨
          ∃ idx, s.cfg.n ≤ idx ∧ ((∃ v, decode w = .ok (.setChannel idx v)) ∨ decode w = .ok (.readChannel idx))))) ∧
    (s.phase = .busy → t.phase ≠ .faulted ∧
      (t.phase = .uninit → (∃ st, s.seq = some (.init st)) ∧
        ∃ w, t.responsesRev = w :: s.responsesRev ∧ t.resp = some w) ∧
      (t.phase = .ready → ∃ w, t.responsesRev = w :: s.responsesRev ∧ t.resp = some w))

/-- R25: the fault record is written only by a fault, only while it is NONE, and cleared only by reset. -/
def Obligations.FirstFaultIsKept : Prop :=
  ∀ s t : State, s.resetLine = false → step s = .next t →
    (s.fault.cause ≠ .none → t.fault = s.fault) ∧ (t.fault ≠ s.fault → t.phase = .faulted)

/-- R32: no command stops the generator or closes the bus; a GenStart or BusOpen answered Ok sets them. That `genOn` and
`busOpen` stay true when the GenStart or BusOpen of a later INIT fails is the model's reading of R32 against R123's "stays
false" (log entry 14). -/
def Obligations.GeneratorAndBusStayOn : Prop :=
  ∀ s t : State, s.resetLine = false → step s = .next t →
    (s.genOn = true → t.genOn = true) ∧ (s.busOpen = true → t.busOpen = true) ∧
    (t.genOn = true → s.genOn = true ∨ ∃ sig f d, t.trace = s.trace ++ [⟨.genStart sig f d, .ok⟩]) ∧
    (t.busOpen = true → s.busOpen = true ∨ ∃ sp, t.trace = s.trace ++ [⟨.busOpen sp, .ok⟩])

/-- R55, R43: a step issues at most one operation, and only while INIT or UPDATE runs; the operation is that of the
sequencer position, on a signal the strategy has (R6). -/
def Obligations.OneOperationAtATime : Prop :=
  ∀ s t : State, Inv s → step s = .next t →
    t.trace = s.trace ∨
      ∃ p rep, s.phase = .busy ∧ s.seq = some p ∧ opAllowed s.cfg (posOp s.cfg s.buf p) = true ∧
        t.trace = s.trace ++ [⟨posOp s.cfg s.buf p, rep⟩]

/-- R31: no step writes the configuration, reset included. -/
def Obligations.ConfigurationIsNeverWritten : Prop :=
  ∀ s t : State, step s = .next t → t.cfg = s.cfg

/-- R42, R54, R22: while a command runs no step without reset changes the buffer, so that UPDATE sends one snapshot;
outside BUSY a step changes an entry only by SET_CHANNEL, SET_ALL, CLEAR or INIT. -/
def Obligations.BufferChangesOnlyByItsCommands : Prop :=
  ∀ s t : State, s.resetLine = false → step s = .next t → t.buf ≠ s.buf →
    s.phase ≠ .busy ∧ ∃ w ws i, s.offers = w :: ws ∧ decode w = .ok i ∧ i ≠ .update ∧ ∀ idx, i ≠ .readChannel idx

/-- R136: with no command running and no word offered the engine is idle and holds all its state. -/
def Obligations.IdleEngineHoldsItsState : Prop :=
  ∀ s : State, s.resetLine = false → s.phase ≠ .busy → s.offers = [] → step s = .next s

/-- R74: exactly one response for every accepted word, when the command ends: words offered, responses given and the
command still running add up to the same number after every step without reset. -/
def Obligations.OneResponsePerAcceptedWord : Prop :=
  ∀ s t : State, s.resetLine = false → step s = .next t →
    t.offers.length + t.responsesRev.length + (if t.phase = .busy then 1 else 0) =
      s.offers.length + s.responsesRev.length + (if s.phase = .busy then 1 else 0)

/-- R74: while BUSY the port accepts nothing: an offered word waits through the step, and a command that is offered to
the engine changes nothing. -/
def Obligations.PortIsClosedWhileBusy : Prop :=
  (∀ s t : State, s.phase = .busy → step s = .next t → t.offers = s.offers) ∧
  (∀ (s : State) (i : Instr), s.phase = .busy → exec i s = .next s)

/-- The invariants hold after reset, for every configuration. The clauses of `Inv` that the model chose, and no rule gives:
`canonical` (log entry 8), `levelsOwned` (log entry 9) and `busyPos` (log entry 11). -/
def Obligations.InvariantHoldsAfterReset : Prop :=
  ∀ cfg : Config, Inv (State.resetFor cfg) ∧ blankHeldOff (State.resetFor cfg) ∧ dataHeld (State.resetFor cfg)

/-- Every step keeps the invariant `Inv`. The clauses of it that the model chose, and no rule gives: `canonical` (log entry
8), `levelsOwned` (log entry 9), a position in every BUSY state, `busyPos` (log entry 11), and in `posOk` the form of a
position (log entry 15). -/
def Obligations.EveryStepKeepsTheInvariant : Prop :=
  ∀ s t : State, Inv s → step s = .next t → Inv t

/-- From a state with the invariant a step never stops: it answers a next state. -/
def Obligations.StepNeverStops : Prop :=
  ∀ s : State, Inv s → ∃ t, step s = .next t

/-- R101, R110, R150: BLANK is held at OFF from the second operation of an UPDATE to its last: every step keeps it so. -/
def Obligations.BlankIsHeldOffDuringTransfer : Prop :=
  ∀ s t : State, blankHeldOff s → step s = .next t → blankHeldOff t

/-- R103, R104, R105: DATA is held at the stream bit while SCLK is pulsed for it: every step keeps it so. -/
def Obligations.DataIsHeldDuringShiftPulse : Prop :=
  ∀ s t : State, dataHeld s → step s = .next t → dataHeld t
end

