-- ==== Sys2Proof/Laws/Encoding.lean ====
section
/-! SUPPORT. A word is its three fields, and what each row's match and mask say about them: the lemmas through which
decoding and encoding are compared. -/

namespace Sys2Proof

@[simp] theorem opField_commandWord (op : BitVec 4) (idx : BitVec 12) (val : Entry) :
    opField (commandWord op idx val) = op := by
  unfold opField commandWord
  ext i hi
  simp only [BitVec.getElem_extractLsb', BitVec.getLsbD_append]
  rw [if_neg (by omega), if_neg (by omega)]
  simp [show 28 + i - 16 - 12 = i by omega, BitVec.getLsbD_eq_getElem hi]

@[simp] theorem idxField_commandWord (op : BitVec 4) (idx : BitVec 12) (val : Entry) :
    idxField (commandWord op idx val) = idx := by
  unfold idxField commandWord
  ext i hi
  simp only [BitVec.getElem_extractLsb', BitVec.getLsbD_append]
  rw [if_neg (by omega), if_pos (by omega)]
  simp [show 16 + i - 16 = i by omega, BitVec.getLsbD_eq_getElem hi]

@[simp] theorem valField_commandWord (op : BitVec 4) (idx : BitVec 12) (val : Entry) :
    valField (commandWord op idx val) = val := by
  unfold valField commandWord
  ext i hi
  simp only [BitVec.getElem_extractLsb', BitVec.getLsbD_append]
  rw [if_pos (by omega)]
  simp [BitVec.getLsbD_eq_getElem hi]

/-- A word is the command word of its fields (R60). -/
theorem word_eq_fields (w : Word) : w = commandWord (opField w) (idxField w) (valField w) := by
  unfold opField idxField valField commandWord
  apply BitVec.eq_of_getLsbD_eq
  intro i hi
  simp only [BitVec.getLsbD_append, BitVec.getLsbD_extractLsb']
  split
  next h => simp [h]
  next h =>
    split
    next h' => simp [show 16 + (i - 16) = i by omega, h']
    next h' => simp [show 28 + (i - 16 - 12) = i by omega, show i - 16 - 12 < 4 by omega]

theorem commandWord_inj {o o' : BitVec 4} {i i' : BitVec 12} {v v' : Entry} :
    commandWord o i v = commandWord o' i' v' ↔ o = o' ∧ i = i' ∧ v = v' := by
  constructor
  · intro h
    have h1 := congrArg opField h
    have h2 := congrArg idxField h
    have h3 := congrArg valField h
    simp only [opField_commandWord, idxField_commandWord, valField_commandWord] at h1 h2 h3
    exact ⟨h1, h2, h3⟩
  · rintro ⟨rfl, rfl, rfl⟩; rfl

theorem commandWord_and (o o' : BitVec 4) (i i' : BitVec 12) (v v' : Entry) :
    commandWord o i v &&& commandWord o' i' v' = commandWord (o &&& o') (i &&& i') (v &&& v') := by
  show (o ++ i ++ v : BitVec (4 + 12 + 16)) &&& (o' ++ i' ++ v') = (o &&& o') ++ (i &&& i') ++ (v &&& v')
  rw [BitVec.and_append, BitVec.and_append]

/-- A word meets a match under a mask exactly when each field does. -/
theorem meets_fields (o mo po : BitVec 4) (i mi pi : BitVec 12) (v mv pv : Entry) :
    commandWord o i v &&& commandWord mo mi mv = commandWord po pi pv ↔
      o &&& mo = po ∧ i &&& mi = pi ∧ v &&& mv = pv := by
  rw [commandWord_and, commandWord_inj]

theorem entry_and_ones (v : Entry) : v &&& 0xFFFF#16 = v := by
  have : 0xFFFF#16 = BitVec.allOnes 16 := by decide
  rw [this, BitVec.and_allOnes]

theorem idx_and_ones (i : BitVec 12) : i &&& 0xFFF#12 = i := by
  have : 0xFFF#12 = BitVec.allOnes 12 := by decide
  rw [this, BitVec.and_allOnes]

theorem op_and_ones (o : BitVec 4) : o &&& 0xF#4 = o := by
  have : 0xF#4 = BitVec.allOnes 4 := by decide
  rw [this, BitVec.and_allOnes]

/-- Every bit fixed (INIT, CLEAR, UPDATE). -/
theorem mask_all (o po : BitVec 4) (i : BitVec 12) (v : Entry) :
    commandWord o i v &&& (0xFFFFFFFF : Word) = commandWord po 0 0 ↔ o = po ∧ i = 0 ∧ v = 0 := by
  rw [show (0xFFFFFFFF : Word) = commandWord 0xF#4 0xFFF#12 0xFFFF#16 from rfl, meets_fields, op_and_ones, idx_and_ones,
    entry_and_ones]

/-- Only the opcode fixed (SET_CHANNEL). -/
theorem mask_op (o po : BitVec 4) (i : BitVec 12) (v : Entry) :
    commandWord o i v &&& (0xF0000000 : Word) = commandWord po 0 0 ↔ o = po := by
  rw [show (0xF0000000 : Word) = commandWord 0xF#4 0 0 from rfl, meets_fields, op_and_ones]
  simp

/-- The index bits zero (SET_ALL). -/
theorem mask_op_idx (o po : BitVec 4) (i : BitVec 12) (v : Entry) :
    commandWord o i v &&& (0xFFFF0000 : Word) = commandWord po 0 0 ↔ o = po ∧ i = 0 := by
  rw [show (0xFFFF0000 : Word) = commandWord 0xF#4 0xFFF#12 0 from rfl, meets_fields, op_and_ones, idx_and_ones]
  simp

/-- The value bits zero (READ_CHANNEL). -/
theorem mask_op_val (o po : BitVec 4) (i : BitVec 12) (v : Entry) :
    commandWord o i v &&& (0xF000FFFF : Word) = commandWord po 0 0 ↔ o = po ∧ v = 0 := by
  rw [show (0xF000FFFF : Word) = commandWord 0xF#4 0 0xFFFF#16 from rfl, meets_fields, op_and_ones, entry_and_ones]
  simp

/-- Decoding, field by field (R60 to R67). -/
theorem decode_fields (o : BitVec 4) (i : BitVec 12) (v : Entry) :
    decode (commandWord o i v) =
      if o = 1 ∧ i = 0 ∧ v = 0 then .ok .init
      else if o = 2 then .ok (.setChannel i.toNat v)
      else if o = 3 ∧ i = 0 then .ok (.setAll v)
      else if o = 4 ∧ i = 0 ∧ v = 0 then .ok .clear
      else if o = 5 ∧ i = 0 ∧ v = 0 then .ok .update
      else if o = 6 ∧ v = 0 then .ok (.readChannel i.toNat)
      else .error (illegalReason (commandWord o i v)) := by
  have h1 := mask_all o 1 i v
  have h2 := mask_op o 2 i v
  have h3 := mask_op_idx o 3 i v
  have h4 := mask_all o 4 i v
  have h5 := mask_all o 5 i v
  have h6 := mask_op_val o 6 i v
  rw [show commandWord 1 0 0 = (0x10000000 : Word) from rfl] at h1
  rw [show commandWord 2 0 0 = (0x20000000 : Word) from rfl] at h2
  rw [show commandWord 3 0 0 = (0x30000000 : Word) from rfl] at h3
  rw [show commandWord 4 0 0 = (0x40000000 : Word) from rfl] at h4
  rw [show commandWord 5 0 0 = (0x50000000 : Word) from rfl] at h5
  rw [show commandWord 6 0 0 = (0x60000000 : Word) from rfl] at h6
  simp only [decode, meets, beq_iff_eq, h1, h2, h3, h4, h5, h6, idxField_commandWord, valField_commandWord]

/-- The value of a command word. -/
theorem commandWord_toNat (o : BitVec 4) (i : BitVec 12) (v : Entry) :
    (commandWord o i v).toNat = o.toNat * 2 ^ 28 + i.toNat * 2 ^ 16 + v.toNat := by
  have ho := o.isLt
  have hi := i.isLt
  have hv := v.isLt
  simp only [commandWord, BitVec.toNat_append]
  rw [Nat.shiftLeft_eq, Nat.shiftLeft_eq, Nat.mul_comm o.toNat, Nat.mul_comm _ (2 ^ 16),
    ← Nat.two_pow_add_eq_or_of_lt hi, ← Nat.two_pow_add_eq_or_of_lt hv]
  omega

end Sys2Proof
end

