-- ==== Sys2Proof/Laws/Memory.lean ====
section
/-! SUPPORT. Laws of the channel buffer: read after write, the canonical form is kept, canonical buffers that read alike
are equal. -/

namespace Sys2Proof.Machine

theorem wfFrom_mono {lo lo' : Nat} (h : lo' ≤ lo) : ∀ {m : Memory}, Memory.wfFrom lo m = true → Memory.wfFrom lo' m = true
  | [], _ => rfl
  | (j, w) :: m, hm => by
    simp only [Memory.wfFrom, Bool.and_eq_true, decide_eq_true_eq] at hm ⊢
    exact ⟨⟨by omega, hm.1.2⟩, hm.2⟩

/-- Below the least listed index everything reads 0. -/
theorem read_of_lt {lo i : Nat} (h : i < lo) : ∀ {m : Memory}, Memory.wfFrom lo m = true → m.read i = 0
  | [], _ => rfl
  | (j, w) :: m, hm => by
    simp only [Memory.wfFrom, Bool.and_eq_true, decide_eq_true_eq] at hm
    simp only [Memory.read]
    rw [if_neg (by omega)]
    exact read_of_lt (by omega) hm.2

theorem wfFrom_write {lo i : Nat} (v : Entry) (h : lo ≤ i) :
    ∀ {m : Memory}, Memory.wfFrom lo m = true → Memory.wfFrom lo (m.write i v) = true
  | [], _ => by
    by_cases hv : v = 0
    · simp only [Memory.write, if_pos hv, Memory.wfFrom]
    · simp only [Memory.write, if_neg hv, Memory.wfFrom, Bool.and_eq_true, decide_eq_true_eq]
      exact ⟨⟨h, hv⟩, trivial⟩
  | (j, w) :: m, hm => by
    have hm' := hm
    simp only [Memory.wfFrom, Bool.and_eq_true, decide_eq_true_eq] at hm'
    simp only [Memory.write]
    split
    · by_cases hv : v = 0
      · simpa only [if_pos hv] using hm
      · simp only [if_neg hv, Memory.wfFrom, Bool.and_eq_true, decide_eq_true_eq]
        exact ⟨⟨h, hv⟩, ⟨by omega, hm'.1.2⟩, hm'.2⟩
    · split
      · by_cases hv : v = 0
        · simp only [if_pos hv]; exact wfFrom_mono (by omega) hm'.2
        · have : i = j := by assumption
          subst this
          simp only [if_neg hv, Memory.wfFrom, Bool.and_eq_true, decide_eq_true_eq]
          exact ⟨⟨h, hv⟩, hm'.2⟩
      · simp only [Memory.wfFrom, Bool.and_eq_true, decide_eq_true_eq]
        exact ⟨hm'.1, wfFrom_write v (by omega) hm'.2⟩

/-- A write keeps the canonical form. -/
theorem wf_write {m : Memory} (i : Nat) (v : Entry) (h : m.wf = true) : (m.write i v).wf = true :=
  wfFrom_write v (Nat.zero_le i) h

/-- A read after a write to the same index gives the value written. -/
theorem read_write_same {lo i : Nat} (v : Entry) :
    ∀ {m : Memory}, Memory.wfFrom lo m = true → (m.write i v).read i = v
  | [], _ => by
    by_cases hv : v = 0
    · simp only [Memory.write, if_pos hv, Memory.read]; exact hv.symm
    · simp only [Memory.write, if_neg hv, Memory.read, if_true]
  | (j, w) :: m, hm => by
    simp only [Memory.wfFrom, Bool.and_eq_true, decide_eq_true_eq] at hm
    simp only [Memory.write]
    split
    · by_cases hv : v = 0
      · simp only [if_pos hv, Memory.read]
        rw [if_neg (by omega), read_of_lt (by omega) hm.2, hv]
      · simp only [if_neg hv, Memory.read, if_true]
    · split
      · have : i = j := by assumption
        subst this
        by_cases hv : v = 0
        · simp only [if_pos hv]; rw [read_of_lt (Nat.lt_succ_self i) hm.2, hv]
        · simp only [if_neg hv, Memory.read, if_true]
      · simp only [Memory.read]
        rw [if_neg (by assumption)]
        exact read_write_same v hm.2

/-- A write leaves every other index alone. -/
theorem read_write_other {i k : Nat} (v : Entry) (h : k ≠ i) : ∀ m : Memory, (m.write i v).read k = m.read k
  | [] => by by_cases hv : v = 0 <;> simp only [Memory.write, Memory.read, hv, h, if_true, if_false]
  | (j, w) :: m => by
    simp only [Memory.write]
    split
    · by_cases hv : v = 0 <;> simp only [Memory.read, hv, h, if_true, if_false]
    · split
      · have : i = j := by assumption
        subst this
        by_cases hv : v = 0 <;> simp only [Memory.read, hv, h, if_true, if_false]
      · simp only [Memory.read, read_write_other v h m]

theorem below_write {n i : Nat} (v : Entry) (h : i < n) :
    ∀ {m : Memory}, m.below n = true → (m.write i v).below n = true
  | [], _ => by
    by_cases hv : v = 0
    · simp only [Memory.write, hv, if_true, Memory.below]
    · simp only [Memory.write, hv, if_false, Memory.below, h, decide_true, Bool.and_self]
  | (j, w) :: m, hm => by
    have hm' := hm
    simp only [Memory.below, Bool.and_eq_true, decide_eq_true_eq] at hm'
    simp only [Memory.write]
    split
    · by_cases hv : v = 0
      · simpa only [if_pos hv] using hm
      · simp only [if_neg hv, Memory.below, Bool.and_eq_true, decide_eq_true_eq]
        exact ⟨h, hm'⟩
    · split
      · by_cases hv : v = 0
        · simpa only [if_pos hv] using hm'.2
        · simp only [if_neg hv, Memory.below, Bool.and_eq_true, decide_eq_true_eq]
          exact ⟨h, hm'.2⟩
      · simp only [Memory.below, Bool.and_eq_true, decide_eq_true_eq]
        exact ⟨hm'.1, below_write v h hm'.2⟩

/-- An index out of range reads 0. -/
theorem read_of_below {n i : Nat} (h : n ≤ i) : ∀ {m : Memory}, m.below n = true → m.read i = 0
  | [], _ => rfl
  | (j, w) :: m, hm => by
    simp only [Memory.below, Bool.and_eq_true, decide_eq_true_eq] at hm
    simp only [Memory.read]
    rw [if_neg (by omega)]
    exact read_of_below h hm.2

theorem fill_zero (n : Nat) : Memory.fill n 0 = [] := rfl

theorem fill_of_ne {v : Entry} (n : Nat) (hv : v ≠ 0) :
    Memory.fill n v = (List.range' 0 n).map (fun i => (i, v)) := by
  rw [Memory.fill, if_neg hv, List.range_eq_range']

theorem wfFrom_map_range' (v : Entry) (hv : v ≠ 0) : ∀ k lo : Nat,
    Memory.wfFrom lo ((List.range' lo k).map (fun i => (i, v))) = true
  | 0, _ => rfl
  | k + 1, lo => by
    simp only [List.range'_succ, List.map_cons, Memory.wfFrom, Bool.and_eq_true, decide_eq_true_eq]
    exact ⟨⟨Nat.le_refl _, hv⟩, wfFrom_map_range' v hv k (lo + 1)⟩

/-- A fill has the canonical form. -/
theorem wf_fill (n : Nat) (v : Entry) : (Memory.fill n v).wf = true := by
  by_cases hv : v = 0
  · subst hv; rfl
  · rw [fill_of_ne n hv]; exact wfFrom_map_range' v hv n 0

theorem below_map_range' (v : Entry) (n : Nat) : ∀ k lo : Nat, lo + k ≤ n →
    Memory.below n ((List.range' lo k).map (fun i => (i, v))) = true
  | 0, _, _ => rfl
  | k + 1, lo, h => by
    simp only [List.range'_succ, List.map_cons, Memory.below, Bool.and_eq_true, decide_eq_true_eq]
    exact ⟨by omega, below_map_range' v n k (lo + 1) (by omega)⟩

theorem below_fill (n : Nat) (v : Entry) : (Memory.fill n v).below n = true := by
  by_cases hv : v = 0
  · subst hv; rfl
  · rw [fill_of_ne n hv]; exact below_map_range' v n n 0 (by omega)

theorem read_map_range' (v : Entry) (i : Nat) : ∀ k lo : Nat,
    Memory.read ((List.range' lo k).map (fun j => (j, v))) i = if lo ≤ i ∧ i < lo + k then v else 0
  | 0, lo => by
    rw [if_neg (by omega)]
    rfl
  | k + 1, lo => by
    simp only [List.range'_succ, List.map_cons, Memory.read]
    rw [read_map_range' v i k (lo + 1)]
    by_cases h1 : i = lo
    · rw [if_pos h1, if_pos (by omega)]
    · rw [if_neg h1]
      by_cases h2 : lo + 1 ≤ i ∧ i < lo + 1 + k
      · rw [if_pos h2, if_pos (by omega)]
      · rw [if_neg h2, if_neg (by omega)]

/-- What a filled buffer reads. -/
theorem read_fill (n i : Nat) (v : Entry) : (Memory.fill n v).read i = if i < n then v else 0 := by
  by_cases hv : v = 0
  · subst hv; rw [fill_zero, ite_self]; rfl
  · rw [fill_of_ne n hv, read_map_range' v i n 0]; simp

theorem eq_of_read_eq_from : ∀ {m1 m2 : Memory} {lo : Nat}, Memory.wfFrom lo m1 = true → Memory.wfFrom lo m2 = true →
    (∀ i, m1.read i = m2.read i) → m1 = m2
  | [], [], _, _, _, _ => rfl
  | [], (j, w) :: m2, _, _, h2, h => by
    simp only [Memory.wfFrom, Bool.and_eq_true, decide_eq_true_eq] at h2
    have := h j
    simp only [Memory.read, if_true] at this
    exact absurd this.symm h2.1.2
  | (j, w) :: m1, [], _, h1, _, h => by
    simp only [Memory.wfFrom, Bool.and_eq_true, decide_eq_true_eq] at h1
    have := h j
    simp only [Memory.read, if_true] at this
    exact absurd this h1.1.2
  | (j, w) :: m1, (j', w') :: m2, _, h1, h2, h => by
    simp only [Memory.wfFrom, Bool.and_eq_true, decide_eq_true_eq] at h1 h2
    have hj : j = j' := by
      rcases Nat.lt_trichotomy j j' with hlt | heq | hgt
      · have := h j
        simp only [Memory.read, if_true] at this
        rw [if_neg (by omega), read_of_lt (by omega) h2.2] at this
        exact absurd this h1.1.2
      · exact heq
      · have := h j'
        simp only [Memory.read, if_true] at this
        rw [if_neg (by omega), read_of_lt (by omega) h1.2] at this
        exact absurd this.symm h2.1.2
    subst hj
    have hw : w = w' := by simpa [Memory.read] using h j
    subst hw
    have : m1 = m2 := eq_of_read_eq_from h1.2 h2.2 (fun i => by
      by_cases hi : i = j
      · subst hi; rw [read_of_lt (Nat.lt_succ_self i) h1.2, read_of_lt (Nat.lt_succ_self i) h2.2]
      · simpa [Memory.read, hi] using h i)
    rw [this]

/-- Canonical buffers that read alike are equal data. -/
theorem eq_of_read_eq {m1 m2 : Memory} (h1 : m1.wf = true) (h2 : m2.wf = true) (h : ∀ i, m1.read i = m2.read i) :
    m1 = m2 := eq_of_read_eq_from h1 h2 h

end Sys2Proof.Machine
end

