-- ==== Sys2Proof/Laws/State.lean ====
section
/-! SUPPORT. One lemma per field per update of the state, each by `rfl`: later proofs need not unfold an update. -/

namespace Sys2Proof.Machine

@[simp] theorem takeWord_cfg (s : State) : (takeWord s).cfg = s.cfg := rfl
@[simp] theorem takeWord_buf (s : State) : (takeWord s).buf = s.buf := rfl
@[simp] theorem takeWord_phase (s : State) : (takeWord s).phase = s.phase := rfl
@[simp] theorem takeWord_fault (s : State) : (takeWord s).fault = s.fault := rfl
@[simp] theorem takeWord_resp (s : State) : (takeWord s).resp = s.resp := rfl
@[simp] theorem takeWord_seq (s : State) : (takeWord s).seq = s.seq := rfl
@[simp] theorem takeWord_lvl (s : State) : (takeWord s).lvl = s.lvl := rfl
@[simp] theorem takeWord_genOn (s : State) : (takeWord s).genOn = s.genOn := rfl
@[simp] theorem takeWord_busOpen (s : State) : (takeWord s).busOpen = s.busOpen := rfl
@[simp] theorem takeWord_offers (s : State) : (takeWord s).offers = s.offers.tail := rfl
@[simp] theorem takeWord_env (s : State) : (takeWord s).env = s.env := rfl
@[simp] theorem takeWord_resetLine (s : State) : (takeWord s).resetLine = s.resetLine := rfl
@[simp] theorem takeWord_traceRev (s : State) : (takeWord s).traceRev = s.traceRev := rfl
@[simp] theorem takeWord_responsesRev (s : State) : (takeWord s).responsesRev = s.responsesRev := rfl

@[simp] theorem setPhase_cfg (p : Phase) (s : State) : (setPhase p s).cfg = s.cfg := rfl
@[simp] theorem setPhase_buf (p : Phase) (s : State) : (setPhase p s).buf = s.buf := rfl
@[simp] theorem setPhase_phase (p : Phase) (s : State) : (setPhase p s).phase = p := rfl
@[simp] theorem setPhase_fault (p : Phase) (s : State) : (setPhase p s).fault = s.fault := rfl
@[simp] theorem setPhase_resp (p : Phase) (s : State) : (setPhase p s).resp = s.resp := rfl
@[simp] theorem setPhase_seq (p : Phase) (s : State) : (setPhase p s).seq = s.seq := rfl
@[simp] theorem setPhase_lvl (p : Phase) (s : State) : (setPhase p s).lvl = s.lvl := rfl
@[simp] theorem setPhase_genOn (p : Phase) (s : State) : (setPhase p s).genOn = s.genOn := rfl
@[simp] theorem setPhase_busOpen (p : Phase) (s : State) : (setPhase p s).busOpen = s.busOpen := rfl
@[simp] theorem setPhase_offers (p : Phase) (s : State) : (setPhase p s).offers = s.offers := rfl
@[simp] theorem setPhase_env (p : Phase) (s : State) : (setPhase p s).env = s.env := rfl
@[simp] theorem setPhase_resetLine (p : Phase) (s : State) : (setPhase p s).resetLine = s.resetLine := rfl
@[simp] theorem setPhase_traceRev (p : Phase) (s : State) : (setPhase p s).traceRev = s.traceRev := rfl
@[simp] theorem setPhase_responsesRev (p : Phase) (s : State) : (setPhase p s).responsesRev = s.responsesRev := rfl

@[simp] theorem respond_cfg (w : Word) (s : State) : (respond w s).cfg = s.cfg := rfl
@[simp] theorem respond_buf (w : Word) (s : State) : (respond w s).buf = s.buf := rfl
@[simp] theorem respond_phase (w : Word) (s : State) : (respond w s).phase = s.phase := rfl
@[simp] theorem respond_fault (w : Word) (s : State) : (respond w s).fault = s.fault := rfl
@[simp] theorem respond_resp (w : Word) (s : State) : (respond w s).resp = some w := rfl
@[simp] theorem respond_seq (w : Word) (s : State) : (respond w s).seq = none := rfl
@[simp] theorem respond_lvl (w : Word) (s : State) : (respond w s).lvl = s.lvl := rfl
@[simp] theorem respond_genOn (w : Word) (s : State) : (respond w s).genOn = s.genOn := rfl
@[simp] theorem respond_busOpen (w : Word) (s : State) : (respond w s).busOpen = s.busOpen := rfl
@[simp] theorem respond_offers (w : Word) (s : State) : (respond w s).offers = s.offers := rfl
@[simp] theorem respond_env (w : Word) (s : State) : (respond w s).env = s.env := rfl
@[simp] theorem respond_resetLine (w : Word) (s : State) : (respond w s).resetLine = s.resetLine := rfl
@[simp] theorem respond_traceRev (w : Word) (s : State) : (respond w s).traceRev = s.traceRev := rfl
@[simp] theorem respond_responsesRev (w : Word) (s : State) : (respond w s).responsesRev = w :: s.responsesRev := rfl

@[simp] theorem answerFaulted_cfg (s : State) : (answerFaulted s).cfg = s.cfg := rfl
@[simp] theorem answerFaulted_buf (s : State) : (answerFaulted s).buf = s.buf := rfl
@[simp] theorem answerFaulted_phase (s : State) : (answerFaulted s).phase = s.phase := rfl
@[simp] theorem answerFaulted_fault (s : State) : (answerFaulted s).fault = s.fault := rfl
@[simp] theorem answerFaulted_resp (s : State) : (answerFaulted s).resp = some (faultedWord s.fault) := rfl
@[simp] theorem answerFaulted_seq (s : State) : (answerFaulted s).seq = none := rfl
@[simp] theorem answerFaulted_lvl (s : State) : (answerFaulted s).lvl = s.lvl := rfl
@[simp] theorem answerFaulted_genOn (s : State) : (answerFaulted s).genOn = s.genOn := rfl
@[simp] theorem answerFaulted_busOpen (s : State) : (answerFaulted s).busOpen = s.busOpen := rfl
@[simp] theorem answerFaulted_offers (s : State) : (answerFaulted s).offers = s.offers := rfl
@[simp] theorem answerFaulted_env (s : State) : (answerFaulted s).env = s.env := rfl
@[simp] theorem answerFaulted_resetLine (s : State) : (answerFaulted s).resetLine = s.resetLine := rfl
@[simp] theorem answerFaulted_traceRev (s : State) : (answerFaulted s).traceRev = s.traceRev := rfl
@[simp] theorem answerFaulted_responsesRev (s : State) : (answerFaulted s).responsesRev = faultedWord s.fault :: s.responsesRev := rfl

@[simp] theorem raiseFault_cfg (c : FaultCause) (i : Entry) (s : State) : (raiseFault c i s).cfg = s.cfg := rfl
@[simp] theorem raiseFault_buf (c : FaultCause) (i : Entry) (s : State) : (raiseFault c i s).buf = s.buf := rfl
@[simp] theorem raiseFault_phase (c : FaultCause) (i : Entry) (s : State) : (raiseFault c i s).phase = .faulted := rfl
@[simp] theorem raiseFault_fault (c : FaultCause) (i : Entry) (s : State) : (raiseFault c i s).fault = recordFault s.fault c i := rfl
@[simp] theorem raiseFault_resp (c : FaultCause) (i : Entry) (s : State) : (raiseFault c i s).resp = some (faultedWord (recordFault s.fault c i)) := rfl
@[simp] theorem raiseFault_seq (c : FaultCause) (i : Entry) (s : State) : (raiseFault c i s).seq = none := rfl
@[simp] theorem raiseFault_lvl (c : FaultCause) (i : Entry) (s : State) : (raiseFault c i s).lvl = s.lvl := rfl
@[simp] theorem raiseFault_genOn (c : FaultCause) (i : Entry) (s : State) : (raiseFault c i s).genOn = s.genOn := rfl
@[simp] theorem raiseFault_busOpen (c : FaultCause) (i : Entry) (s : State) : (raiseFault c i s).busOpen = s.busOpen := rfl
@[simp] theorem raiseFault_offers (c : FaultCause) (i : Entry) (s : State) : (raiseFault c i s).offers = s.offers := rfl
@[simp] theorem raiseFault_env (c : FaultCause) (i : Entry) (s : State) : (raiseFault c i s).env = s.env := rfl
@[simp] theorem raiseFault_resetLine (c : FaultCause) (i : Entry) (s : State) : (raiseFault c i s).resetLine = s.resetLine := rfl
@[simp] theorem raiseFault_traceRev (c : FaultCause) (i : Entry) (s : State) : (raiseFault c i s).traceRev = s.traceRev := rfl
@[simp] theorem raiseFault_responsesRev (c : FaultCause) (i : Entry) (s : State) : (raiseFault c i s).responsesRev = faultedWord (recordFault s.fault c i) :: s.responsesRev := rfl

@[simp] theorem raiseIoError_cfg (b : Bool) (g : Signal) (s : State) : (raiseIoError b g s).cfg = s.cfg := rfl
@[simp] theorem raiseIoError_buf (b : Bool) (g : Signal) (s : State) : (raiseIoError b g s).buf = s.buf := rfl
@[simp] theorem raiseIoError_phase (b : Bool) (g : Signal) (s : State) : (raiseIoError b g s).phase = (if b then .uninit else .ready) := rfl
@[simp] theorem raiseIoError_fault (b : Bool) (g : Signal) (s : State) : (raiseIoError b g s).fault = s.fault := rfl
@[simp] theorem raiseIoError_resp (b : Bool) (g : Signal) (s : State) : (raiseIoError b g s).resp = some (ioErrorWord g) := rfl
@[simp] theorem raiseIoError_seq (b : Bool) (g : Signal) (s : State) : (raiseIoError b g s).seq = none := rfl
@[simp] theorem raiseIoError_lvl (b : Bool) (g : Signal) (s : State) : (raiseIoError b g s).lvl = s.lvl := rfl
@[simp] theorem raiseIoError_genOn (b : Bool) (g : Signal) (s : State) : (raiseIoError b g s).genOn = s.genOn := rfl
@[simp] theorem raiseIoError_busOpen (b : Bool) (g : Signal) (s : State) : (raiseIoError b g s).busOpen = s.busOpen := rfl
@[simp] theorem raiseIoError_offers (b : Bool) (g : Signal) (s : State) : (raiseIoError b g s).offers = s.offers := rfl
@[simp] theorem raiseIoError_env (b : Bool) (g : Signal) (s : State) : (raiseIoError b g s).env = s.env := rfl
@[simp] theorem raiseIoError_resetLine (b : Bool) (g : Signal) (s : State) : (raiseIoError b g s).resetLine = s.resetLine := rfl
@[simp] theorem raiseIoError_traceRev (b : Bool) (g : Signal) (s : State) : (raiseIoError b g s).traceRev = s.traceRev := rfl
@[simp] theorem raiseIoError_responsesRev (b : Bool) (g : Signal) (s : State) : (raiseIoError b g s).responsesRev = ioErrorWord g :: s.responsesRev := rfl

@[simp] theorem raiseConfigError_cfg (s : State) : (raiseConfigError s).cfg = s.cfg := rfl
@[simp] theorem raiseConfigError_buf (s : State) : (raiseConfigError s).buf = s.buf := rfl
@[simp] theorem raiseConfigError_phase (s : State) : (raiseConfigError s).phase = .uninit := rfl
@[simp] theorem raiseConfigError_fault (s : State) : (raiseConfigError s).fault = s.fault := rfl
@[simp] theorem raiseConfigError_resp (s : State) : (raiseConfigError s).resp = some configErrorWord := rfl
@[simp] theorem raiseConfigError_seq (s : State) : (raiseConfigError s).seq = none := rfl
@[simp] theorem raiseConfigError_lvl (s : State) : (raiseConfigError s).lvl = s.lvl := rfl
@[simp] theorem raiseConfigError_genOn (s : State) : (raiseConfigError s).genOn = s.genOn := rfl
@[simp] theorem raiseConfigError_busOpen (s : State) : (raiseConfigError s).busOpen = s.busOpen := rfl
@[simp] theorem raiseConfigError_offers (s : State) : (raiseConfigError s).offers = s.offers := rfl
@[simp] theorem raiseConfigError_env (s : State) : (raiseConfigError s).env = s.env := rfl
@[simp] theorem raiseConfigError_resetLine (s : State) : (raiseConfigError s).resetLine = s.resetLine := rfl
@[simp] theorem raiseConfigError_traceRev (s : State) : (raiseConfigError s).traceRev = s.traceRev := rfl
@[simp] theorem raiseConfigError_responsesRev (s : State) : (raiseConfigError s).responsesRev = configErrorWord :: s.responsesRev := rfl

@[simp] theorem complete_cfg (d : Entry) (s : State) : (complete d s).cfg = s.cfg := rfl
@[simp] theorem complete_buf (d : Entry) (s : State) : (complete d s).buf = s.buf := rfl
@[simp] theorem complete_phase (d : Entry) (s : State) : (complete d s).phase = .ready := rfl
@[simp] theorem complete_fault (d : Entry) (s : State) : (complete d s).fault = s.fault := rfl
@[simp] theorem complete_resp (d : Entry) (s : State) : (complete d s).resp = some (okWord d) := rfl
@[simp] theorem complete_seq (d : Entry) (s : State) : (complete d s).seq = none := rfl
@[simp] theorem complete_lvl (d : Entry) (s : State) : (complete d s).lvl = s.lvl := rfl
@[simp] theorem complete_genOn (d : Entry) (s : State) : (complete d s).genOn = s.genOn := rfl
@[simp] theorem complete_busOpen (d : Entry) (s : State) : (complete d s).busOpen = s.busOpen := rfl
@[simp] theorem complete_offers (d : Entry) (s : State) : (complete d s).offers = s.offers := rfl
@[simp] theorem complete_env (d : Entry) (s : State) : (complete d s).env = s.env := rfl
@[simp] theorem complete_resetLine (d : Entry) (s : State) : (complete d s).resetLine = s.resetLine := rfl
@[simp] theorem complete_traceRev (d : Entry) (s : State) : (complete d s).traceRev = s.traceRev := rfl
@[simp] theorem complete_responsesRev (d : Entry) (s : State) : (complete d s).responsesRev = okWord d :: s.responsesRev := rfl

@[simp] theorem startAt_cfg (p : Pos) (s : State) : (startAt p s).cfg = s.cfg := rfl
@[simp] theorem startAt_buf (p : Pos) (s : State) : (startAt p s).buf = s.buf := rfl
@[simp] theorem startAt_phase (p : Pos) (s : State) : (startAt p s).phase = .busy := rfl
@[simp] theorem startAt_fault (p : Pos) (s : State) : (startAt p s).fault = s.fault := rfl
@[simp] theorem startAt_resp (p : Pos) (s : State) : (startAt p s).resp = s.resp := rfl
@[simp] theorem startAt_seq (p : Pos) (s : State) : (startAt p s).seq = some p := rfl
@[simp] theorem startAt_lvl (p : Pos) (s : State) : (startAt p s).lvl = s.lvl := rfl
@[simp] theorem startAt_genOn (p : Pos) (s : State) : (startAt p s).genOn = s.genOn := rfl
@[simp] theorem startAt_busOpen (p : Pos) (s : State) : (startAt p s).busOpen = s.busOpen := rfl
@[simp] theorem startAt_offers (p : Pos) (s : State) : (startAt p s).offers = s.offers := rfl
@[simp] theorem startAt_env (p : Pos) (s : State) : (startAt p s).env = s.env := rfl
@[simp] theorem startAt_resetLine (p : Pos) (s : State) : (startAt p s).resetLine = s.resetLine := rfl
@[simp] theorem startAt_traceRev (p : Pos) (s : State) : (startAt p s).traceRev = s.traceRev := rfl
@[simp] theorem startAt_responsesRev (p : Pos) (s : State) : (startAt p s).responsesRev = s.responsesRev := rfl

@[simp] theorem observe_cfg (op : Op) (a : Answer) (s : State) : (observe op a s).cfg = s.cfg := rfl
@[simp] theorem observe_buf (op : Op) (a : Answer) (s : State) : (observe op a s).buf = s.buf := rfl
@[simp] theorem observe_phase (op : Op) (a : Answer) (s : State) : (observe op a s).phase = s.phase := rfl
@[simp] theorem observe_fault (op : Op) (a : Answer) (s : State) : (observe op a s).fault = s.fault := rfl
@[simp] theorem observe_resp (op : Op) (a : Answer) (s : State) : (observe op a s).resp = s.resp := rfl
@[simp] theorem observe_seq (op : Op) (a : Answer) (s : State) : (observe op a s).seq = s.seq := rfl
@[simp] theorem observe_lvl (op : Op) (a : Answer) (s : State) : (observe op a s).lvl = levelsAfter op a.isOk s.lvl := rfl
@[simp] theorem observe_genOn (op : Op) (a : Answer) (s : State) : (observe op a s).genOn = genOnAfter op a.isOk s.genOn := rfl
@[simp] theorem observe_busOpen (op : Op) (a : Answer) (s : State) : (observe op a s).busOpen = busOpenAfter op a.isOk s.busOpen := rfl
@[simp] theorem observe_offers (op : Op) (a : Answer) (s : State) : (observe op a s).offers = s.offers := rfl
@[simp] theorem observe_env (op : Op) (a : Answer) (s : State) : (observe op a s).env = s.env := rfl
@[simp] theorem observe_resetLine (op : Op) (a : Answer) (s : State) : (observe op a s).resetLine = s.resetLine := rfl
@[simp] theorem observe_traceRev (op : Op) (a : Answer) (s : State) : (observe op a s).traceRev = ⟨op, replyTo op a⟩ :: s.traceRev := rfl
@[simp] theorem observe_responsesRev (op : Op) (a : Answer) (s : State) : (observe op a s).responsesRev = s.responsesRev := rfl

@[simp] theorem applyReset_cfg (s : State) : (applyReset s).cfg = s.cfg := rfl
@[simp] theorem applyReset_buf (s : State) : (applyReset s).buf = [] := rfl
@[simp] theorem applyReset_phase (s : State) : (applyReset s).phase = .uninit := rfl
@[simp] theorem applyReset_fault (s : State) : (applyReset s).fault = .clear := rfl
@[simp] theorem applyReset_resp (s : State) : (applyReset s).resp = none := rfl
@[simp] theorem applyReset_seq (s : State) : (applyReset s).seq = none := rfl
@[simp] theorem applyReset_lvl (s : State) : (applyReset s).lvl = .unknown := rfl
@[simp] theorem applyReset_genOn (s : State) : (applyReset s).genOn = false := rfl
@[simp] theorem applyReset_busOpen (s : State) : (applyReset s).busOpen = false := rfl
@[simp] theorem applyReset_offers (s : State) : (applyReset s).offers = s.offers := rfl
@[simp] theorem applyReset_env (s : State) : (applyReset s).env = s.env := rfl
@[simp] theorem applyReset_resetLine (s : State) : (applyReset s).resetLine = false := rfl
@[simp] theorem applyReset_traceRev (s : State) : (applyReset s).traceRev = s.traceRev := rfl
@[simp] theorem applyReset_responsesRev (s : State) : (applyReset s).responsesRev = s.responsesRev := rfl

end Sys2Proof.Machine
end

