-- ==== Sys2Proof/Laws/Ops.lean ====
section
/-! SUPPORT. What each shared operation can do, said once: the fault record, the answer to an operation, dispatch, and
one inversion lemma for `exec`, `acceptWord`, `transact`, `busyStep` and `step`. -/

namespace Sys2Proof.Machine

@[simp] theorem Level.duty_level (l : Level) : levelOfDuty (dutyOf l) = l := by
  cases l <;> simp [levelOfDuty, dutyOf]

@[simp] theorem recordFault_none {f : FaultRecord} (h : f.cause = .none) (c : FaultCause) (i : Entry) :
    recordFault f c i = ⟨c, i⟩ := by simp [recordFault, h]

@[simp] theorem recordFault_some {f : FaultRecord} (h : f.cause ≠ .none) (c : FaultCause) (i : Entry) :
    recordFault f c i = f := by simp [recordFault, h]

@[simp] theorem okWord_zero : okWord 0#16 = 0#32 := by decide

theorem okWord_eq (d : Entry) : okWord d = 0#16 ++ d := by
  have h : (respCode .ok ++ (0 : BitVec 4) ++ (0 : BitVec 8) : BitVec 16) = 0#16 := by decide
  show (respCode .ok ++ (0 : BitVec 4) ++ (0 : BitVec 8) : BitVec 16) ++ d = 0#16 ++ d
  rw [h]

theorem ioErrorWord_eq (g : Signal) : ioErrorWord g = 0x1#4 ++ sigCode g ++ 0#24 := by cases g <;> decide

@[simp] theorem configErrorWord_eq : configErrorWord = 0x20000000#32 := by decide

theorem faultedWord_eq (f : FaultRecord) : faultedWord f = 0xF#4 ++ 0#4 ++ causeCode f.cause ++ f.info := rfl

theorem faultedWord_oob (info : Entry) : faultedWord ⟨.indexOob, info⟩ = 0xF003#16 ++ info := by
  have h : (respCode .faulted ++ (0 : BitVec 4) ++ causeCode .indexOob : BitVec 16) = 0xF003#16 := by decide
  show (respCode .faulted ++ (0 : BitVec 4) ++ causeCode .indexOob : BitVec 16) ++ info = 0xF003#16 ++ info
  rw [h]

theorem levels_get_set_same (v : Levels) (g : Signal) (x : Shadow) (h : g ≠ .bus) : (v.set g x).get g = x := by
  cases g <;> first | rfl | exact absurd rfl h

theorem levels_get_set_other (v : Levels) {g g' : Signal} (x : Shadow) (h : g' ≠ g) : (v.set g x).get g' = v.get g' := by
  cases g <;> cases g' <;> first | rfl | exact absurd rfl h

theorem blankSet_cases (cfg : Config) (l : Level) :
    (cfg.blankKind = .pin ∧ blankSet cfg l = .pinSet .blank l) ∨
    (cfg.blankKind = .generator ∧ blankSet cfg l = .genDuty .blank (dutyOf l)) := by
  cases h : cfg.blankKind
  · exact .inl ⟨rfl, by simp [blankSet, h]⟩
  · exact .inr ⟨rfl, by simp [blankSet, h]⟩

/-- A BlankSet answered Ok leaves BLANK at its level, of either kind (R13, R28). -/
theorem levelsAfter_blankSet (cfg : Config) (l : Level) (v : Levels) :
    levelsAfter (blankSet cfg l) true v = { v with blank := .driven l } := by
  rcases blankSet_cases cfg l with ⟨-, h⟩ | ⟨-, h⟩ <;> simp [h, levelsAfter, Levels.set, shadowAfter]

@[simp] theorem blankSet_signal (cfg : Config) (l : Level) : (blankSet cfg l).signal = .blank := by
  rcases blankSet_cases cfg l with ⟨-, h⟩ | ⟨-, h⟩ <;> simp [h, Op.signal]

@[simp] theorem genOnAfter_blankSet (cfg : Config) (l : Level) (ok g : Bool) : genOnAfter (blankSet cfg l) ok g = g := by
  rcases blankSet_cases cfg l with ⟨-, h⟩ | ⟨-, h⟩ <;> simp [h, genOnAfter]

@[simp] theorem busOpenAfter_blankSet (cfg : Config) (l : Level) (ok b : Bool) :
    busOpenAfter (blankSet cfg l) ok b = b := by
  rcases blankSet_cases cfg l with ⟨-, h⟩ | ⟨-, h⟩ <;> simp [h, busOpenAfter]

@[simp] theorem replyTo_blankSet (cfg : Config) (l : Level) (rx0 rx1 : Byte) :
    replyTo (blankSet cfg l) (.ok rx0 rx1) = .ok := by
  rcases blankSet_cases cfg l with ⟨-, h⟩ | ⟨-, h⟩ <;> simp [h, replyTo]

/-- What a command does once dispatch has let it run. -/
def runOf : Instr → State → State
  | .init => runInit
  | .setChannel idx val => checkIdx idx (fun s => complete 0 { s with buf := s.buf.write idx val })
  | .setAll val => fun s => complete 0 { s with buf := Memory.fill s.cfg.n val }
  | .clear => fun s => complete 0 { s with buf := Memory.fill s.cfg.n 0 }
  | .update => startAt .blankOff
  | .readChannel idx => checkIdx idx (fun s => complete (s.buf.read idx) s)

theorem exec_eq_dispatch (i : Instr) (s : State) : exec i s = dispatch (decide (i = .init)) (runOf i) s := by
  cases i <;> rfl

theorem exec_busy {s : State} (h : s.phase = .busy) (i : Instr) : exec i s = .next s := by
  rw [exec_eq_dispatch, dispatch, h]

theorem exec_ready {s : State} (h : s.phase = .ready) (i : Instr) : exec i s = .next (runOf i (takeWord s)) := by
  rw [exec_eq_dispatch, dispatch, h]

theorem exec_faulted {s : State} (h : s.phase = .faulted) (i : Instr) :
    exec i s = .next (answerFaulted (takeWord s)) := by
  rw [exec_eq_dispatch, dispatch, h]

theorem exec_uninit_init {s : State} (h : s.phase = .uninit) : exec .init s = .next (runInit (takeWord s)) := by
  rw [exec_eq_dispatch, dispatch, h]; rfl

theorem exec_uninit_other {s : State} (h : s.phase = .uninit) {i : Instr} (hi : i ≠ .init) :
    exec i s = .next (raiseFault .notInit 0 (takeWord s)) := by
  rw [exec_eq_dispatch, dispatch, h]; simp [hi]

/-- `exec` always answers a next state. -/
theorem exec_total (i : Instr) (s : State) : ∃ t, exec i s = .next t := by
  cases h : s.phase
  · by_cases hi : i = .init
    · subst hi; exact ⟨_, exec_uninit_init h⟩
    · exact ⟨_, exec_uninit_other h hi⟩
  · exact ⟨_, exec_ready h i⟩
  · exact ⟨_, exec_busy h i⟩
  · exact ⟨_, exec_faulted h i⟩

/-- Everything the acceptance of a word can do, outside BUSY: answer the stored fault, raise a fault of dispatch, or run
the command. -/
theorem acceptWord_cases {s t : State} {w : Word} (hb : s.phase ≠ .busy) (h : acceptWord w s = .next t) :
    (s.phase = .faulted ∧ t = answerFaulted (takeWord s)) ∨
    ((∃ e, decode w = .error e) ∧ s.phase ≠ .faulted ∧ t = raiseFault .illegalCmd 0 (takeWord s)) ∨
    ((∃ i, decode w = .ok i ∧ i ≠ .init) ∧ s.phase = .uninit ∧ t = raiseFault .notInit 0 (takeWord s)) ∨
    (∃ i, decode w = .ok i ∧ (s.phase = .ready ∨ (s.phase = .uninit ∧ i = .init)) ∧ t = runOf i (takeWord s)) := by
  unfold acceptWord at h
  split at h
  next i hd =>
    cases hp : s.phase
    · by_cases hi : i = .init
      · subst hi
        rw [exec_uninit_init hp] at h
        exact .inr (.inr (.inr ⟨_, hd, .inr ⟨rfl, rfl⟩, by injection h with h; exact h.symm⟩))
      · rw [exec_uninit_other hp hi] at h
        exact .inr (.inr (.inl ⟨⟨i, hd, hi⟩, rfl, by injection h with h; exact h.symm⟩))
    · rw [exec_ready hp] at h
      exact .inr (.inr (.inr ⟨_, hd, .inl rfl, by injection h with h; exact h.symm⟩))
    · exact absurd hp hb
    · rw [exec_faulted hp] at h
      exact .inl ⟨rfl, by injection h with h; exact h.symm⟩
  next e hd =>
    cases hp : s.phase <;> simp only [dispatchIllegal, hp] at h
    · exact .inr (.inl ⟨⟨e, hd⟩, by simp, by injection h with h; exact h.symm⟩)
    · exact .inr (.inl ⟨⟨e, hd⟩, by simp, by injection h with h; exact h.symm⟩)
    · exact absurd hp hb
    · exact .inl ⟨rfl, by injection h with h; exact h.symm⟩

/-- Everything one transaction can do: go on, complete the command, or end it with an I/O error. -/
theorem transact_cases (p : Pos) (a : Answer) (s : State) :
    (∃ rx0 rx1 q, a = .ok rx0 rx1 ∧ nextPos s.cfg s.buf rx1 p = some q ∧
      transact p a s = { observe (posOp s.cfg s.buf p) a s with seq := some q }) ∨
    (∃ rx0 rx1, a = .ok rx0 rx1 ∧ nextPos s.cfg s.buf rx1 p = none ∧
      transact p a s = complete 0 (observe (posOp s.cfg s.buf p) a s)) ∨
    (a = .err ∧ transact p a s =
      raiseIoError (inInit p) (posOp s.cfg s.buf p).signal (observe (posOp s.cfg s.buf p) a s)) := by
  cases a with
  | err => exact .inr (.inr ⟨rfl, rfl⟩)
  | ok rx0 rx1 =>
    cases h : nextPos s.cfg s.buf rx1 p with
    | none => exact .inr (.inl ⟨rx0, rx1, rfl, h, by simp [transact, h, advance]⟩)
    | some q => exact .inl ⟨rx0, rx1, q, rfl, h, by simp [transact, h, advance]⟩

/-- Everything a step can do: reset, a transaction (or waiting for its answer), idling, accepting a word. -/
theorem step_cases {s t : State} (h : step s = .next t) :
    (s.resetLine = true ∧ t = applyReset s) ∨
    (s.resetLine = false ∧ s.phase = .busy ∧ ∃ p, s.seq = some p ∧
      ((nextAnswer s.env = none ∧ t = s) ∨
        ∃ a rest, nextAnswer s.env = some (a, rest) ∧ t = transact p a { s with env := rest })) ∨
    (s.resetLine = false ∧ s.phase ≠ .busy ∧ s.offers = [] ∧ t = s) ∨
    (s.resetLine = false ∧ s.phase ≠ .busy ∧ ∃ w ws, s.offers = w :: ws ∧ acceptWord w s = .next t) := by
  have port : portStep s = .next t → s.phase ≠ .busy → s.resetLine = false →
      (s.resetLine = false ∧ s.phase ≠ .busy ∧ s.offers = [] ∧ t = s) ∨
      (s.resetLine = false ∧ s.phase ≠ .busy ∧ ∃ w ws, s.offers = w :: ws ∧ acceptWord w s = .next t) := by
    intro h hp hr
    cases ho : s.offers with
    | nil =>
      simp only [portStep, fetchWord, ho, List.head?_nil] at h
      injection h with h
      exact .inl ⟨hr, hp, rfl, h.symm⟩
    | cons w ws =>
      simp only [portStep, fetchWord, ho, List.head?_cons] at h
      exact .inr ⟨hr, hp, w, ws, rfl, h⟩
  by_cases hr : s.resetLine = true
  · simp only [step, hr, if_true] at h
    injection h with h
    exact .inl ⟨hr, h.symm⟩
  · have hr : s.resetLine = false := by simpa using hr
    by_cases hp : s.phase = .busy
    · simp only [step, hr, Bool.false_eq_true, if_false, hp] at h
      refine .inr (.inl ⟨hr, hp, ?_⟩)
      split at h
      next p hs =>
        injection h with h
        refine ⟨p, hs, ?_⟩
        unfold busyStep at h
        split at h
        next a rest ha => exact .inr ⟨a, rest, ha, h.symm⟩
        next ha => exact .inl ⟨ha, h.symm⟩
      next => simp at h
    · refine .inr (.inr (port ?_ hp hr))
      rw [← h]
      simp only [step, hr, Bool.false_eq_true, if_false]
      split <;> first | rfl | contradiction

/-- A step outside BUSY, with no reset, on an offered word is its acceptance. -/
theorem step_offered {s : State} {w : Word} {ws : List Word} (hr : s.resetLine = false) (hb : s.phase ≠ .busy)
    (ho : s.offers = w :: ws) : step s = acceptWord w s := by
  cases hp : s.phase <;> simp_all [step, portStep, fetchWord]

theorem step_decoded {s : State} {w : Word} {ws : List Word} {i : Instr} (hr : s.resetLine = false)
    (hb : s.phase ≠ .busy) (ho : s.offers = w :: ws) (hd : decode w = .ok i) : step s = exec i s := by
  rw [step_offered hr hb ho, acceptWord, hd]

/-- A step in BUSY with an answer is one transaction. -/
theorem step_answered {s : State} {p : Pos} {a : Answer} {rest : Env} (hr : s.resetLine = false)
    (hb : s.phase = .busy) (hs : s.seq = some p) (ha : nextAnswer s.env = some (a, rest)) :
    step s = .next (transact p a { s with env := rest }) := by
  simp [step, hr, hb, hs, busyStep, ha]

/-- A buffer command that is in range, out of range, or needs no index. -/
theorem checkIdx_cases (idx : Nat) (run : State → State) (s : State) :
    (idx < s.cfg.n ∧ checkIdx idx run s = run s) ∨
    (s.cfg.n ≤ idx ∧ checkIdx idx run s = raiseFault .indexOob (idxInfo idx) s) := by
  by_cases h : idx < s.cfg.n
  · exact .inl ⟨h, by simp [checkIdx, idxInRange, h]⟩
  · exact .inr ⟨Nat.le_of_not_lt h, by simp [checkIdx, idxInRange, h]⟩

theorem runInit_valid {s : State} (h : configValid s.cfg = true) :
    runInit s = startAt (.init (firstInitStep s.cfg)) { s with buf := [] } := by
  rw [runInit, if_pos h, fill_zero]

theorem runInit_invalid {s : State} (h : configValid s.cfg = false) : runInit s = raiseConfigError s := by
  simp [runInit, h]

/-- What a buffer command that completes leaves in the buffer (R90 to R93). -/
def bufferAfter (i : Instr) (n : Nat) (m m' : Memory) : Prop :=
  (∃ idx v, i = .setChannel idx v ∧ idx < n ∧ m' = m.write idx v) ∨
  (∃ v, (i = .setAll v ∨ (i = .clear ∧ v = 0)) ∧ m' = Memory.fill n v) ∨
  (∃ idx, i = .readChannel idx ∧ idx < n ∧ m' = m)

/-- Everything a command that dispatch has let run can do: start INIT, refuse the configuration, start UPDATE, raise
INDEX_OOB, or complete as a buffer command. -/
theorem runOf_cases (i : Instr) (s : State) :
    (i = .init ∧ configValid s.cfg = true ∧
      runOf i s = startAt (.init (firstInitStep s.cfg)) { s with buf := [] }) ∨
    (i = .init ∧ configValid s.cfg = false ∧ runOf i s = raiseConfigError s) ∨
    (i = .update ∧ runOf i s = startAt .blankOff s) ∨
    (∃ idx, ((∃ v, i = .setChannel idx v) ∨ i = .readChannel idx) ∧ s.cfg.n ≤ idx ∧
      runOf i s = raiseFault .indexOob (idxInfo idx) s) ∨
    (∃ d m, bufferAfter i s.cfg.n s.buf m ∧ runOf i s = complete d { s with buf := m }) := by
  cases i with
  | init =>
    cases h : configValid s.cfg
    · exact .inr (.inl ⟨rfl, rfl, runInit_invalid h⟩)
    · exact .inl ⟨rfl, rfl, runInit_valid h⟩
  | update => exact .inr (.inr (.inl ⟨rfl, rfl⟩))
  | setChannel idx v =>
    rcases checkIdx_cases idx (fun s => complete 0 { s with buf := s.buf.write idx v }) s with ⟨h, e⟩ | ⟨h, e⟩
    · exact .inr (.inr (.inr (.inr ⟨0, _, .inl ⟨idx, v, rfl, h, rfl⟩, e⟩)))
    · exact .inr (.inr (.inr (.inl ⟨idx, .inl ⟨v, rfl⟩, h, e⟩)))
  | setAll v => exact .inr (.inr (.inr (.inr ⟨0, _, .inr (.inl ⟨v, .inl rfl, rfl⟩), rfl⟩)))
  | clear => exact .inr (.inr (.inr (.inr ⟨0, _, .inr (.inl ⟨0, .inr ⟨rfl, rfl⟩, rfl⟩), rfl⟩)))
  | readChannel idx =>
    rcases checkIdx_cases idx (fun s => complete (s.buf.read idx) s) s with ⟨h, e⟩ | ⟨h, e⟩
    · exact .inr (.inr (.inr (.inr ⟨s.buf.read idx, s.buf, .inr (.inr ⟨idx, rfl, h, rfl⟩), e⟩)))
    · exact .inr (.inr (.inr (.inl ⟨idx, .inr rfl, h, e⟩)))

/-- The phase a command that dispatch has let run ends its first step in (R24). -/
theorem runOf_phase (i : Instr) (s : State) :
    ((runOf i s).phase = .uninit ↔ i = .init ∧ configValid s.cfg = false) ∧
    ((runOf i s).phase = .busy ↔ (i = .init ∧ configValid s.cfg = true) ∨ i = .update) ∧
    ((runOf i s).phase = .faulted ↔
      ∃ idx, s.cfg.n ≤ idx ∧ ((∃ v, i = .setChannel idx v) ∨ i = .readChannel idx)) := by
  rcases runOf_cases i s with ⟨hi, hc, e⟩ | ⟨hi, hc, e⟩ | ⟨hi, e⟩ | ⟨idx, hi, h, e⟩ | ⟨d, m, hb, e⟩ <;> rw [e]
  · subst hi; simp [startAt, hc]
  · subst hi; simp [hc]
  · subst hi; simp [startAt]
  · rcases hi with ⟨v, rfl⟩ | rfl <;> simp [h]
  · rcases hb with ⟨idx, v, rfl, hl, _⟩ | ⟨v, rfl | ⟨rfl, _⟩, _⟩ | ⟨idx, rfl, hl, _⟩
    · simp [hl]
    · simp
    · simp
    · simp [hl]

end Sys2Proof.Machine
end

