-- ==== Sys2Proof/Laws/Sequencer.lean ====
section
/-! SUPPORT. Runs of the sequencer: a chain of positions, what the engine has done after some of its operations, and the
chains of INIT and UPDATE. -/

namespace Sys2Proof.Machine

theorem takeAnswers_succ {k : Nat} {e rest : Env} {a : Answer} {as : List Answer}
    (h : takeAnswers (k + 1) e = some (a :: as, rest)) :
    ∃ e1, nextAnswer e = some (a, e1) ∧ takeAnswers k e1 = some (as, rest) := by
  simp only [takeAnswers] at h
  split at h
  · simp at h
  next b e1 hb =>
    split at h
    · simp at h
    next bs e2 hbs =>
      simp only [Option.some.injEq, Prod.mk.injEq, List.cons.injEq] at h
      obtain ⟨⟨rfl, rfl⟩, rfl⟩ := h
      exact ⟨e1, hb, hbs⟩

/-- An environment that gives one answer over and over. -/
theorem takeAnswers_always (a : Answer) : ∀ k, takeAnswers k ⟨[], [a]⟩ = some (List.replicate k a, ⟨[], [a]⟩)
  | 0 => rfl
  | k + 1 => by simp [takeAnswers, nextAnswer, takeAnswers_always a k, List.replicate_succ]

theorem takeAnswers_length : ∀ {k : Nat} {e rest : Env} {as : List Answer},
    takeAnswers k e = some (as, rest) → as.length = k
  | 0, _, _, _, h => by
    simp only [takeAnswers, Option.some.injEq, Prod.mk.injEq] at h
    simp [← h.1]
  | k + 1, _, _, [], h => by
    simp only [takeAnswers] at h
    split at h
    · simp at h
    · split at h <;> simp at h
  | k + 1, _, _, a :: as, h => by
    obtain ⟨e1, -, h1⟩ := takeAnswers_succ h
    simp [takeAnswers_length h1]

/-- The answers of a longer run are those of a shorter one and then those of the rest. -/
theorem takeAnswers_append : ∀ {as bs : List Answer} {e rest : Env} {k : Nat},
    takeAnswers k e = some (as ++ bs, rest) →
    ∃ mid, takeAnswers as.length e = some (as, mid) ∧ takeAnswers bs.length mid = some (bs, rest)
  | [], bs, e, rest, k, h => ⟨e, rfl, by
      have := takeAnswers_length h
      simp only [List.nil_append] at this h
      rw [this]; exact h⟩
  | a :: as, bs, e, rest, 0, h => by have := takeAnswers_length h; simp at this
  | a :: as, bs, e, rest, k + 1, h => by
    obtain ⟨e1, h1, h2⟩ := takeAnswers_succ h
    obtain ⟨mid, h3, h4⟩ := takeAnswers_append h2
    exact ⟨mid, by simp [takeAnswers, h1, h3], h4⟩

/-- A chain of positions: from each position, an answer Ok whose status byte is one that `good` allows at that place leads
to the next one, and from the last to `q`. -/
def Chain (cfg : Config) (buf : Memory) (good : Nat → Byte → Prop) (q : Option Pos) : Nat → List Pos → Prop
  | _, [] => True
  | i, p :: ps =>
    (∀ rx, good i rx → nextPos cfg buf rx p = (ps.head?).or q) ∧ Chain cfg buf good q (i + 1) ps

theorem chain_append {cfg : Config} {buf : Memory} {good : Nat → Byte → Prop} {q : Option Pos} :
    ∀ {i : Nat} {ps qs : List Pos}, Chain cfg buf good (qs.head?.or q) i ps → Chain cfg buf good q (i + ps.length) qs →
      Chain cfg buf good q i (ps ++ qs)
  | _, [], qs, _, h2 => by simpa using h2
  | i, p :: ps, qs, h1, h2 => by
    refine ⟨?_, chain_append h1.2 (by simpa [Nat.add_assoc, Nat.add_comm 1] using h2)⟩
    intro rx hg
    rw [h1.1 rx hg]
    cases ps <;> simp

/-- The state after operations that were answered Ok. -/
def afterOps (ops : List Op) (as : List Answer) (rest : Env) (s : State) : State :=
  { s with
    env := rest
    traceRev := (traced ops as).reverse ++ s.traceRev
    lvl := ops.foldl (fun v op => levelsAfter op true v) s.lvl
    genOn := ops.foldl (fun g op => genOnAfter op true g) s.genOn
    busOpen := ops.foldl (fun b op => busOpenAfter op true b) s.busOpen }

theorem isOk_cases {a : Answer} (h : a.isOk = true) : ∃ rx0 rx1, a = .ok rx0 rx1 := by
  cases a with
  | ok rx0 rx1 => exact ⟨rx0, rx1, rfl⟩
  | err => simp [Answer.isOk] at h

/-- Along a chain, `k` answers that are Ok and good bring the engine to the `k`-th position. -/
theorem run_chain {cfg : Config} {buf : Memory} {good : Nat → Byte → Prop} {q : Option Pos} :
    ∀ (as : List Answer) {i : Nat} {ps : List Pos} {s : State} {rest : Env} {p' : Pos},
      Chain cfg buf good q i ps → s.cfg = cfg → s.buf = buf → s.phase = .busy → s.resetLine = false →
      s.seq = ps.head? → takeAnswers as.length s.env = some (as, rest) →
      (∀ m a, as[m]? = some a → a.isOk = true ∧ good (i + m) (statusByte a)) →
      ps[as.length]? = some p' →
      runSteps as.length s =
        .next { afterOps ((ps.take as.length).map (posOp cfg buf)) as rest s with seq := some p' }
  | [], i, ps, s, rest, p', _, _, _, _, _, hs, ht, _, hp => by
    have h1 : ps.head? = some p' := by simpa [List.head?_eq_getElem?] using hp
    have h2 : s.env = rest := by simpa [takeAnswers] using ht
    subst h2
    cases s
    simp_all [runSteps, afterOps, traced]
  | a :: as, i, [], s, rest, p', _, _, _, _, _, hs, ht, _, hp => by simp at hp
  | a :: as, i, p :: ps, s, rest, p', hc, hcfg, hbuf, hb, hr, hs, ht, hg, hp => by
    obtain ⟨e1, h1, h2⟩ := takeAnswers_succ ht
    obtain ⟨hok, hgood⟩ := hg 0 a (by simp)
    obtain ⟨rx0, rx1, rfl⟩ := isOk_cases hok
    have hp2 : ps[as.length]? = some p' := by simpa using hp
    have hne : ps.head? ≠ none := by
      cases ps with
      | nil => simp at hp2
      | cons x xs => simp
    obtain ⟨p1, hp1⟩ := Option.ne_none_iff_exists'.mp hne
    have hn : nextPos s.cfg s.buf rx1 p = some p1 := by
      rw [hcfg, hbuf, hc.1 rx1 hgood, hp1]; rfl
    have hs' : s.seq = some p := by simpa using hs
    have hstep := step_answered hr hb hs' h1
    simp only [List.length_cons, runSteps, hstep]
    have ih := run_chain as (i := i + 1) (ps := ps) (rest := rest) (p' := p')
      (s := transact p (.ok rx0 rx1) { s with env := e1 }) hc.2
    simp only [transact, advance, hn] at ih ⊢
    rw [ih hcfg hbuf hb hr hp1.symm h2 ?_ hp2]
    · simp only [afterOps, List.take_succ_cons, List.map_cons, List.foldl_cons, traced, List.zipWith_cons_cons,
        List.reverse_cons, List.append_assoc, List.singleton_append, observe, Answer.isOk, hcfg, hbuf]
    · intro m b hm
      have := hg (m + 1) b (by simpa using hm)
      simpa [Nat.add_assoc, Nat.add_comm 1] using this

/-- One more step after a run of `k`. -/
theorem runSteps_succ_last : ∀ {k : Nat} {x y : State}, runSteps k x = .next y → runSteps (k + 1) x = step y
  | 0, x, y, h => by
    simp only [runSteps] at h ⊢
    injection h with h
    rw [h]
    cases step y <;> rfl
  | k + 1, x, y, h => by
    rw [runSteps] at h ⊢
    cases hs : step x with
    | next t => simp only [hs] at h ⊢; exact runSteps_succ_last h
    | fault f => simp [hs] at h
    | refused r => simp [hs] at h

/-- A chain that ends the command, run to its end with every answer Ok and good, completes it. -/
theorem run_chain_completes {cfg : Config} {buf : Memory} {good : Nat → Byte → Prop} {as : List Answer} {ps : List Pos}
    {s : State} {rest : Env} (hc : Chain cfg buf good none 0 ps) (hcfg : s.cfg = cfg) (hbuf : s.buf = buf)
    (hb : s.phase = .busy) (hr : s.resetLine = false) (hs : s.seq = ps.head?) (hne : ps ≠ [])
    (ht : takeAnswers ps.length s.env = some (as, rest))
    (hg : ∀ m a, as[m]? = some a → a.isOk = true ∧ good m (statusByte a)) :
    runSteps ps.length s = .next (complete 0 (afterOps (ps.map (posOp cfg buf)) as rest s)) := by
  obtain ⟨ps', p, rfl⟩ : ∃ ps' p, ps = ps' ++ [p] := ⟨ps.dropLast, ps.getLast hne, (List.dropLast_append_getLast hne).symm⟩
  have hl := takeAnswers_length ht
  obtain ⟨as', a, rfl⟩ : ∃ as' a, as = as' ++ [a] := by
    have : as ≠ [] := by intro h; simp [h] at hl
    exact ⟨as.dropLast, as.getLast this, (List.dropLast_append_getLast this).symm⟩
  have hl' : as'.length = ps'.length := by simpa using hl
  obtain ⟨mid, h1, h2⟩ := takeAnswers_append ht
  obtain ⟨e1, h3, h4⟩ := takeAnswers_succ (k := 0) h2
  simp only [takeAnswers, Option.some.injEq, Prod.mk.injEq, true_and] at h4
  subst h4
  have hrun := run_chain as' hc hcfg hbuf hb hr hs h1
    (fun m b hm => by
      have hlt : m < as'.length := (List.getElem?_eq_some_iff.mp hm).1
      simpa using hg m b (by rw [List.getElem?_append_left hlt]; exact hm))
    (p' := p) (by simp [hl'])
  obtain ⟨hok, hgood⟩ := hg as'.length a (by simp)
  obtain ⟨rx0, rx1, rfl⟩ := isOk_cases hok
  have hn : nextPos cfg buf rx1 p = none := by
    have : ∀ {i : Nat} {xs : List Pos}, Chain cfg buf good none i (xs ++ [p]) → good (i + xs.length) rx1 →
        nextPos cfg buf rx1 p = none := by
      intro i xs
      induction xs generalizing i with
      | nil => intro h hgd; simpa using h.1 rx1 (by simpa using hgd)
      | cons x xs ih =>
        intro h hgd
        exact ih h.2 (by simpa [Nat.add_assoc, Nat.add_comm 1] using hgd)
    exact this hc (by simpa [hl', statusByte] using hgood)
  have hlast := runSteps_succ_last hrun
  simp only [List.length_append, List.length_cons, List.length_nil, Nat.zero_add]
  rw [← hl', hlast]
  rw [step_answered (s := { afterOps ((((ps' ++ [p]).take as'.length)).map (posOp cfg buf)) as' mid s with
    seq := some p }) hr hb rfl h3]
  simp only [transact, hcfg, hbuf, hn, advance, afterOps]
  simp only [hl', List.take_left', List.map_append, List.map_cons, List.map_nil, List.foldl_append, List.foldl_cons,
    List.foldl_nil, traced, observe, complete, respond, setPhase, Answer.isOk]
  rw [List.zipWith_append (by simp [hl'])]
  simp

/-- Along a chain, an answer Err after `as` ends the command there with an I/O error on that operation's signal. -/
theorem run_chain_fails {cfg : Config} {buf : Memory} {good : Nat → Byte → Prop} {as : List Answer} {ps : List Pos}
    {q : Option Pos} {p : Pos} {s : State} {rest : Env} (hc : Chain cfg buf good q 0 ps) (hcfg : s.cfg = cfg)
    (hbuf : s.buf = buf) (hb : s.phase = .busy) (hr : s.resetLine = false) (hs : s.seq = ps.head?)
    (hp : ps[as.length]? = some p) (ht : takeAnswers (as.length + 1) s.env = some (as ++ [.err], rest))
    (hg : ∀ m a, as[m]? = some a → a.isOk = true ∧ good m (statusByte a)) :
    ∃ mid, runSteps (as.length + 1) s =
      .next (transact p .err { afterOps ((ps.take as.length).map (posOp cfg buf)) as mid s with
        seq := some p, env := rest }) := by
  obtain ⟨mid, h1, h2⟩ := takeAnswers_append ht
  obtain ⟨e1, h3, h4⟩ := takeAnswers_succ (k := 0) h2
  simp only [takeAnswers, Option.some.injEq, Prod.mk.injEq, true_and] at h4
  subst h4
  have hrun := run_chain as hc hcfg hbuf hb hr hs h1 (fun m b hm => by simpa using hg m b hm) hp
  refine ⟨mid, ?_⟩
  rw [runSteps_succ_last hrun]
  exact step_answered (s := { afterOps ((ps.take as.length).map (posOp cfg buf)) as mid s with seq := some p }) hr hb
    rfl h3

end Sys2Proof.Machine
end

