-- ==== Sys2Proof/Laws/Invariant.lean ====
section
/-! SUPPORT. What an acceptance and a transaction leave alone, and that the sequencer stays among the positions and the
operations of the configured strategy. -/

namespace Sys2Proof.Machine

theorem genOnAfter_eq_true (op : Op) (ok g : Bool) :
    genOnAfter op ok g = true ↔ g = true ∨ (ok = true ∧ ∃ sig f d, op = .genStart sig f d) := by
  cases op <;> simp [genOnAfter]

theorem busOpenAfter_eq_true (op : Op) (ok b : Bool) :
    busOpenAfter op ok b = true ↔ b = true ∨ (ok = true ∧ ∃ sp, op = .busOpen sp) := by
  cases op <;> simp [busOpenAfter]

/-- An operation that neither sets nor holds an output leaves its level (R28). -/
theorem levelsAfter_other (op : Op) (ok : Bool) (v : Levels) (sig : Signal) (h1 : ∀ l, op ≠ .pinSet sig l)
    (h2 : ∀ d, op ≠ .genDuty sig d) : (levelsAfter op ok v).get sig = v.get sig := by
  cases op <;> simp only [levelsAfter]
  · apply levels_get_set_other; rintro rfl; exact h1 _ rfl
  · apply levels_get_set_other; rintro rfl; exact h2 _ rfl

/-- A transaction's effect on the levels is its operation's. -/
theorem transact_lvl (p : Pos) (a : Answer) (s : State) :
    (transact p a s).lvl = levelsAfter (posOp s.cfg s.buf p) a.isOk s.lvl := by
  rcases transact_cases p a s with ⟨_, _, q, rfl, -, e⟩ | ⟨_, _, rfl, -, e⟩ | ⟨rfl, e⟩ <;> rw [e] <;> simp

theorem transact_genOn (p : Pos) (a : Answer) (s : State) :
    (transact p a s).genOn = genOnAfter (posOp s.cfg s.buf p) a.isOk s.genOn := by
  rcases transact_cases p a s with ⟨_, _, q, rfl, -, e⟩ | ⟨_, _, rfl, -, e⟩ | ⟨rfl, e⟩ <;> rw [e] <;> simp

theorem transact_busOpen (p : Pos) (a : Answer) (s : State) :
    (transact p a s).busOpen = busOpenAfter (posOp s.cfg s.buf p) a.isOk s.busOpen := by
  rcases transact_cases p a s with ⟨_, _, q, rfl, -, e⟩ | ⟨_, _, rfl, -, e⟩ | ⟨rfl, e⟩ <;> rw [e] <;> simp

/-- A transaction adds its operation and the answer to the trace (R14). -/
theorem transact_traceRev (p : Pos) (a : Answer) (s : State) :
    (transact p a s).traceRev = ⟨posOp s.cfg s.buf p, replyTo (posOp s.cfg s.buf p) a⟩ :: s.traceRev := by
  rcases transact_cases p a s with ⟨_, _, q, rfl, -, e⟩ | ⟨_, _, rfl, -, e⟩ | ⟨rfl, e⟩ <;> rw [e] <;> simp

/-- A transaction leaves these alone. -/
theorem transact_frame (p : Pos) (a : Answer) (s : State) :
    (transact p a s).cfg = s.cfg ∧ (transact p a s).buf = s.buf ∧ (transact p a s).fault = s.fault ∧
      (transact p a s).offers = s.offers ∧ (transact p a s).env = s.env ∧
      (transact p a s).resetLine = s.resetLine := by
  rcases transact_cases p a s with ⟨_, _, q, rfl, -, e⟩ | ⟨_, _, rfl, -, e⟩ | ⟨rfl, e⟩ <;> rw [e] <;>
    exact ⟨rfl, rfl, rfl, rfl, rfl, rfl⟩

/-- The part of a command that runs in the step that accepts it issues nothing and changes no output. -/
theorem runOf_frame (i : Instr) (s : State) :
    (runOf i s).genOn = s.genOn ∧ (runOf i s).busOpen = s.busOpen ∧ (runOf i s).traceRev = s.traceRev ∧
      (runOf i s).cfg = s.cfg ∧ (runOf i s).lvl = s.lvl ∧ (runOf i s).offers = s.offers := by
  rcases runOf_cases i s with ⟨hi, hc, e⟩ | ⟨hi, hc, e⟩ | ⟨hi, e⟩ | ⟨idx, hi, h, e⟩ | ⟨d, m, hb, e⟩ <;> rw [e] <;>
    exact ⟨rfl, rfl, rfl, rfl, rfl, rfl⟩

theorem acceptWord_frame {s t : State} {w : Word} (hb : s.phase ≠ .busy) (ha : acceptWord w s = .next t) :
    t.genOn = s.genOn ∧ t.busOpen = s.busOpen ∧ t.traceRev = s.traceRev ∧ t.cfg = s.cfg ∧ t.lvl = s.lvl ∧
      t.offers = s.offers.tail := by
  rcases acceptWord_cases hb ha with ⟨h1, rfl⟩ | ⟨⟨e, he⟩, h1, rfl⟩ | ⟨⟨i, he⟩, h1, rfl⟩ | ⟨i, he, h1, rfl⟩
  · exact ⟨rfl, rfl, rfl, rfl, rfl, rfl⟩
  · exact ⟨rfl, rfl, rfl, rfl, rfl, rfl⟩
  · exact ⟨rfl, rfl, rfl, rfl, rfl, rfl⟩
  · exact runOf_frame i (takeWord s)

/-- An index that the decoder gives fits its field (R73). -/
theorem decode_idx_lt {w : Word} {i : Instr} {idx : Nat} (h : decode w = .ok i)
    (hi : (∃ v, i = .setChannel idx v) ∨ i = .readChannel idx) : idx < 4096 := by
  have key : ∀ x : BitVec 12, x.toNat < 4096 := fun x => x.isLt
  unfold decode at h
  repeat' (split at h)
  all_goals (first | (simp at h; done) | skip)
  all_goals injection h with h; subst h
  all_goals simp at hi
  · obtain ⟨rfl, _⟩ := hi; exact key _
  · subst hi; exact key _

theorem opAllowed_blankSet (cfg : Config) (l : Level) : opAllowed cfg (blankSet cfg l) = true := by
  rcases blankSet_cases cfg l with ⟨h, e⟩ | ⟨h, e⟩ <;> rw [e] <;> simp [opAllowed, h]

/-- A position of the strategy issues an operation of the strategy (R6). -/
theorem opAllowed_posOp {cfg : Config} {buf : Memory} {p : Pos} (h : posAllowed cfg buf p = true) :
    opAllowed cfg (posOp cfg buf p) = true := by
  cases p with
  | init st =>
    cases st <;> simp [posAllowed, posOp, initStepOp, opAllowed_blankSet] at h ⊢ <;>
      simp_all [opAllowed, ownsOutput, gsclkStart]
  | tick t e => cases e <;> simp [posAllowed, posOp] at h ⊢ <;> simp_all [opAllowed, ownsOutput]
  | bit t e => cases e <;> simp [posAllowed, posOp] at h ⊢ <;> simp_all [opAllowed, ownsOutput]
  | blankOff => exact opAllowed_blankSet _ _
  | blankOn => exact opAllowed_blankSet _ _
  | _ => simp_all [posAllowed, posOp, opAllowed, ownsOutput, statusPoll]

/-- An operation of the strategy leaves the outputs the strategy has not without a level (R6, R28). -/
theorem levelsAfter_owned {cfg : Config} {op : Op} {ok : Bool} {v : Levels} (h : opAllowed cfg op = true)
    (hv : ∀ sig, ownsOutput cfg sig = false → v.get sig = .unknown) (sig : Signal) (ho : ownsOutput cfg sig = false) :
    (levelsAfter op ok v).get sig = .unknown := by
  by_cases hop : (∃ l, op = .pinSet sig l) ∨ ∃ d, op = .genDuty sig d
  · rcases hop with ⟨l, rfl⟩ | ⟨d, rfl⟩
    · cases sig <;> simp_all [opAllowed, ownsOutput]
    · simp [opAllowed] at h
      obtain ⟨rfl, _⟩ := h
      simp [ownsOutput] at ho
  · push Not at hop
    rw [levelsAfter_other op ok v sig hop.1 hop.2]
    exact hv sig ho

/-- The sequencer goes from a position of the strategy to one of the strategy (R27). -/
theorem nextPos_allowed {cfg : Config} {buf : Memory} {p q : Pos} {rx : Byte} (hv : configValid cfg = true)
    (h : posAllowed cfg buf p = true) (hn : nextPos cfg buf rx p = some q) : posAllowed cfg buf q = true := by
  have hn1 : 1 ≤ cfg.n := by simp [configValid] at hv; omega
  have hnb : 0 < nbits cfg.n := by simp only [nbits]; omega
  cases p with
  | init st =>
    cases hs : cfg.strategy <;> cases st <;> simp [posAllowed, nextPos, nextInitStep, hs] at h hn <;> subst hn <;>
      simp [posAllowed, hs]
  | blankOff =>
    simp only [nextPos, transferStart, Option.some.injEq] at hn
    subst hn
    cases hs : cfg.strategy
    · simp [tickStart, posAllowed, hs]
    · simp [bitStart, hnb, posAllowed, hs]
    · cases hf : cfg.framing <;> simp [posAllowed, hs, hf]
  | tick t e =>
    cases e with
    | data =>
      by_cases ht : t < nbits cfg.n <;> simp [posAllowed, nextPos, ht] at h hn <;> subst hn <;> simp_all [posAllowed]
    | gsclkLow =>
      by_cases h1 : t + 1 < Config.gsTicks <;> by_cases h2 : t + 1 ≤ nbits cfg.n <;>
        simp only [posAllowed, nextPos, tickStart, h1, h2, Option.some.injEq, if_true, if_false] at h hn <;>
        subst hn <;> simp_all [posAllowed]
    | _ => simp [posAllowed, nextPos] at h hn; subst hn; simp_all [posAllowed]
  | bit t e =>
    cases e with
    | sclkLow =>
      by_cases h1 : t + 1 < nbits cfg.n <;>
        simp only [posAllowed, nextPos, bitStart, h1, Option.some.injEq, if_true, if_false] at h hn <;>
        subst hn <;> simp_all [posAllowed]
    | _ => simp [posAllowed, nextPos] at h hn; subst hn; simp_all [posAllowed]
  | frame f => cases hf : cfg.framing <;> simp [posAllowed, nextPos, hf] at h hn <;> subst hn <;> simp_all [posAllowed]
  | poll k =>
    cases hf : writeInProgress cfg rx <;> simp [posAllowed, nextPos, hf] at h hn <;> subst hn <;> simp_all [posAllowed]
  | wren f => simp [posAllowed, nextPos] at h hn; subst hn; simp_all [posAllowed]
  | dataLow => simp [posAllowed, nextPos] at h hn; subst hn; simp_all [posAllowed]
  | latchHigh => simp [posAllowed, nextPos] at h hn; subst hn; simp_all [posAllowed]
  | latchLow => simp [posAllowed, nextPos] at h hn; subst hn; simp_all [posAllowed]
  | blankOn => simp [nextPos] at hn

theorem firstInitStep_allowed (cfg : Config) (buf : Memory) : posAllowed cfg buf (.init (firstInitStep cfg)) = true := by
  cases h : cfg.strategy <;> simp [firstInitStep, h, posAllowed]

/-- From a position of UPDATE the sequencer stays in UPDATE. -/
theorem nextPos_notInit {cfg : Config} {buf : Memory} {p q : Pos} {rx : Byte} (h : inInit p = false)
    (hn : nextPos cfg buf rx p = some q) : inInit q = false := by
  have aux : ∀ n t, inInit (tickStart n t) = false := by intro n t; simp only [tickStart]; split <;> rfl
  cases p with
  | init st => simp [inInit] at h
  | blankOff =>
    simp [nextPos, transferStart] at hn
    subst hn
    cases hs : cfg.strategy <;> simp [aux]
    · simp only [bitStart]; split <;> rfl
    · cases hf : cfg.framing <;> rfl
  | tick t e => cases e <;> simp [nextPos] at hn <;> subst hn <;> (try rfl) <;> split <;> first | rfl | exact aux _ _
  | bit t e =>
    cases e <;> simp [nextPos] at hn <;> subst hn <;> (try rfl)
    simp only [bitStart]
    split <;> rfl
  | frame f => simp [nextPos] at hn; subst hn; split <;> rfl
  | poll k => simp [nextPos] at hn; subst hn; split <;> rfl
  | wren f => simp [nextPos] at hn; subst hn; rfl
  | dataLow => simp [nextPos] at hn; subst hn; rfl
  | latchHigh => simp [nextPos] at hn; subst hn; rfl
  | latchLow => simp [nextPos] at hn; subst hn; rfl
  | blankOn => simp [nextPos] at hn

/-- From a position of INIT the sequencer stays in INIT. -/
theorem nextPos_init {cfg : Config} {buf : Memory} {st : InitStep} {q : Pos} {rx : Byte}
    (hn : nextPos cfg buf rx (.init st) = some q) : ∃ st', q = .init st' := by
  simp only [nextPos, Option.map_eq_some_iff] at hn
  obtain ⟨st', _, rfl⟩ := hn
  exact ⟨st', rfl⟩

end Sys2Proof.Machine
end

