-- ==== Sys2Proof/Laws/PerInstr.lean ====
section
/-! SUPPORT. Facts said once per instruction: every command's word meets the match of its own row of the opcode map under
that row's mask (R61 to R67). -/

namespace Sys2Proof.Laws.TableRow

/-- The command's row is one of the six, and its word meets the row's match under the mask (R62 to R67). -/
def Statement (i : Instr) : Prop := i.row ∈ opcodeRows ∧ encode i &&& i.row.mask = i.row.pattern

theorem init : Statement .init := ⟨by decide, by decide⟩

theorem setChannel (idx : Nat) (val : Entry) : Statement (.setChannel idx val) :=
  ⟨by simp [Instr.row, opcodeRows], (mask_op 2 2 (BitVec.ofNat 12 idx) val).mpr rfl⟩

theorem setAll (val : Entry) : Statement (.setAll val) :=
  ⟨by simp [Instr.row, opcodeRows], (mask_op_idx 3 3 0 val).mpr ⟨rfl, rfl⟩⟩

theorem clear : Statement .clear := ⟨by decide, by decide⟩

theorem update : Statement .update := ⟨by decide, by decide⟩

theorem readChannel (idx : Nat) : Statement (.readChannel idx) :=
  ⟨by simp [Instr.row, opcodeRows], (mask_op_val 6 6 (BitVec.ofNat 12 idx) 0).mpr ⟨rfl, rfl⟩⟩

end Sys2Proof.Laws.TableRow
end

