-- ==== Sys2Proof/Laws/Protocol.lean ====
section
/-! SUPPORT. The positions of INIT and of UPDATE as chains, and the operations they issue: those of the rules. -/

namespace Sys2Proof.Machine

/-- The positions of INIT, in order. -/
def initPositions (cfg : Config) : List Pos :=
  match cfg.strategy with
  | .A => [.init .data, .init .sclk, .init .latch, .init .gsclk, .init .blank]
  | .B => [.init .data, .init .sclk, .init .latch, .init .blank, .init .genStart]
  | .C => [.init .latch, .init .blank, .init .genStart, .init .busOpen]

theorem initPositions_ops (cfg : Config) (buf : Memory) : (initPositions cfg).map (posOp cfg buf) = initOutputs cfg := by
  cases h : cfg.strategy <;> simp [initPositions, initOutputs, h, posOp, initStepOp]

theorem initPositions_head (cfg : Config) : (initPositions cfg).head? = some (.init (firstInitStep cfg)) := by
  cases h : cfg.strategy <;> simp [initPositions, firstInitStep, h]

theorem initPositions_chain (cfg : Config) (buf : Memory) :
    Chain cfg buf (fun _ _ => True) none 0 (initPositions cfg) := by
  cases h : cfg.strategy <;> simp [initPositions, h, Chain, nextPos, nextInitStep]

theorem initPositions_inInit {cfg : Config} {p : Pos} (h : p ∈ initPositions cfg) : inInit p = true := by
  have : ∀ q ∈ initPositions cfg, inInit q = true := by
    cases hs : cfg.strategy <;> simp [initPositions, hs, inInit]
  exact this p h

/-- The positions of one tick of strategy A. -/
def tickPositions (n t : Nat) : List Pos :=
  if t < nbits n then
    [.tick t .data, .tick t .sclkHigh, .tick t .sclkLow, .tick t .gsclkHigh, .tick t .gsclkLow]
  else if t = nbits n then [.tick t .data, .tick t .gsclkHigh, .tick t .gsclkLow]
  else [.tick t .gsclkHigh, .tick t .gsclkLow]

/-- The positions of one stream bit of strategy B. -/
def bitPositions (k : Nat) : List Pos := [.bit k .data, .bit k .sclkHigh, .bit k .sclkLow]

/-- The positions of step 2 of UPDATE. -/
def transferPositions (cfg : Config) (buf : Memory) (polls : Nat) : List Pos :=
  match cfg.strategy with
  | .A => (List.range Config.gsTicks).flatMap (tickPositions cfg.n)
  | .B => (List.range (nbits cfg.n)).flatMap bitPositions ++ [.dataLow]
  | .C =>
    match cfg.framing with
    | .none => [.frame (pack cfg.n buf)]
    | .wrenPoll => [.wren (pack cfg.n buf), .frame (pack cfg.n buf)] ++ (List.range polls).map .poll

/-- The positions of an UPDATE with `polls` status polls. -/
def updatePositions (cfg : Config) (buf : Memory) (polls : Nat) : List Pos :=
  .blankOff :: (transferPositions cfg buf polls ++ [.latchHigh, .latchLow, .blankOn])

theorem tickPositions_ops (cfg : Config) (buf : Memory) (t : Nat) :
    (tickPositions cfg.n t).map (posOp cfg buf) = tickOps cfg.n buf t := by
  unfold tickPositions tickOps
  split
  next h => simp [posOp, h, pulse]
  next h =>
    split
    next h' => simp [posOp, h', pulse]
    next h' => simp [posOp, pulse]

theorem updatePositions_ops (cfg : Config) (buf : Memory) (polls : Nat) :
    (updatePositions cfg buf polls).map (posOp cfg buf) = updateOps cfg buf polls := by
  have ht : (transferPositions cfg buf polls).map (posOp cfg buf) = transfer cfg buf polls := by
    cases h : cfg.strategy
    · simp only [transferPositions, transfer, h, transferA, List.map_flatMap, tickPositions_ops]
    · simp only [transferPositions, transfer, h, transferB, List.map_append, List.map_flatMap]
      rfl
    · cases hf : cfg.framing
      · simp only [transferPositions, transfer, h, transferC, hf]
        rfl
      · simp only [transferPositions, transfer, h, transferC, hf, List.map_append, List.map_map]
        congr 1
        exact List.ext_getElem (by simp) (by intro i h1 h2; simp [posOp])
  simp only [updatePositions, updateOps, List.map_cons, List.map_append, ht]
  rfl

theorem chain_flatMap {cfg : Config} {buf : Memory} {good : Nat → Byte → Prop} {f : Nat → List Pos} {start : Nat → Pos} :
    ∀ (k a i : Nat),
      (∀ t j, a ≤ t → t < a + k → Chain cfg buf good (some (start (t + 1))) j (f t)) →
      (∀ t, a ≤ t → t < a + k → (f t).head? = some (start t)) →
      Chain cfg buf good (some (start (a + k))) i ((List.range' a k).flatMap f)
  | 0, _, _, _, _ => trivial
  | k + 1, a, i, hc, hh => by
    simp only [List.range'_succ, List.flatMap_cons]
    refine chain_append ?_ ?_
    · have : (((List.range' (a + 1) k).flatMap f).head?).or (some (start (a + (k + 1)))) = some (start (a + 1)) := by
        cases k with
        | zero => simp
        | succ k =>
          simp only [List.range'_succ, List.flatMap_cons]
          cases hf : f (a + 1) with
          | nil => have := hh (a + 1) (by omega) (by omega); simp [hf] at this
          | cons x xs =>
            have := hh (a + 1) (by omega) (by omega)
            simpa [hf] using this
      rw [this]
      exact hc a i (Nat.le_refl _) (by omega)
    · have := chain_flatMap (cfg := cfg) (buf := buf) (good := good) (f := f) (start := start) k (a + 1)
        (i + (f a).length) (fun t j h1 h2 => hc t j (by omega) (by omega)) (fun t h1 h2 => hh t (by omega) (by omega))
      simpa [Nat.add_assoc, Nat.add_comm 1] using this

/-- The status bytes an UPDATE needs to go through exactly `polls` polls. -/
def pollGood (cfg : Config) (polls i : Nat) (rx : Byte) : Prop :=
  polled cfg = true → 3 ≤ i → i < 3 + polls → writeInProgress cfg rx = decide (i + 1 < 3 + polls)

theorem polls_chain (cfg : Config) (buf : Memory) (polls : Nat) (hp : polled cfg = true) : ∀ k a : Nat, a + k = polls →
    Chain cfg buf (pollGood cfg polls) (some .latchHigh) (3 + a) ((List.range' a k).map .poll)
  | 0, _, _ => trivial
  | k + 1, a, h => by
    simp only [List.range'_succ, List.map_cons]
    refine ⟨?_, by simpa [Nat.add_assoc] using polls_chain cfg buf polls hp k (a + 1) (by omega)⟩
    intro rx hg
    have hw := hg hp (by omega) (by omega)
    simp only [nextPos, hw]
    cases k with
    | zero => simp; omega
    | succ k => simp [List.range'_succ]; omega

theorem transferPositions_chain (cfg : Config) (buf : Memory) (polls : Nat) (hp : polled cfg = true → 1 ≤ polls) :
    Chain cfg buf (pollGood cfg polls) (some .latchHigh) 1 (transferPositions cfg buf polls) ∧
    (transferPositions cfg buf polls).head? = some (transferStart cfg buf) := by
  cases h : cfg.strategy
  · simp only [transferPositions, transferStart, h]
    have hne : ∀ t, (tickPositions cfg.n t).head? = some (tickStart cfg.n t) := by
      intro t
      unfold tickPositions tickStart
      split
      · rw [if_pos (by omega)]; rfl
      · split
        · rw [if_pos (by omega)]; rfl
        · rw [if_neg (by omega)]; rfl
    constructor
    · have := chain_flatMap (cfg := cfg) (buf := buf) (good := pollGood cfg polls) (f := tickPositions cfg.n)
        (start := fun t => if t < Config.gsTicks then tickStart cfg.n t else .latchHigh) Config.gsTicks 0 1 ?_ ?_
      · simpa [List.range_eq_range'] using this
      · intro t j _ _
        by_cases hlt : t < nbits cfg.n
        · simp [tickPositions, Chain, nextPos, hlt]
        · by_cases heq : t = nbits cfg.n <;> simp [tickPositions, Chain, nextPos, hlt, heq]
      · intro t _ hlt
        rw [hne t, if_pos (by simpa using hlt)]
    · show ((List.range (4095 + 1)).flatMap _).head? = _
      rw [List.range_succ_eq_map, List.flatMap_cons]
      have h0 := hne 0
      cases hf : tickPositions cfg.n 0 with
      | nil => simp [hf] at h0
      | cons x xs => simpa [hf] using h0
  · simp only [transferPositions, transferStart, h]
    constructor
    · refine chain_append ?_ (by simp [Chain, nextPos])
      have := chain_flatMap (cfg := cfg) (buf := buf) (good := pollGood cfg polls) (f := bitPositions)
        (start := bitStart cfg.n) (nbits cfg.n) 0 1 ?_ ?_
      · simpa [List.range_eq_range', bitStart] using this
      · intro t j _ _
        simp [bitPositions, Chain, nextPos]
      · intro t _ hlt
        simp only [Nat.zero_add] at hlt
        simp [bitPositions, bitStart, hlt]
    · cases hn : nbits cfg.n with
      | zero => simp [bitStart, hn]
      | succ m => simp [List.range_succ_eq_map, bitPositions, bitStart, hn]
  · cases hf : cfg.framing
    · simp [transferPositions, transferStart, h, Chain, nextPos, hf]
    · simp only [transferPositions, transferStart, h, hf]
      have hpol : polled cfg = true := by simp [polled, h, hf]
      refine ⟨?_, rfl⟩
      refine chain_append ?_ (by simpa [List.range_eq_range'] using polls_chain cfg buf polls hpol polls 0 (by omega))
      have hpo := hp hpol
      have : ((List.range polls).map Pos.poll).head? = some (.poll 0) := by
        obtain ⟨m, rfl⟩ : ∃ m, polls = m + 1 := ⟨polls - 1, by omega⟩
        simp [List.range_succ_eq_map]
      rw [this]
      simp [Chain, nextPos, hf]

theorem updatePositions_chain (cfg : Config) (buf : Memory) (polls : Nat) (hp : polled cfg = true → 1 ≤ polls) :
    Chain cfg buf (pollGood cfg polls) none 0 (updatePositions cfg buf polls) := by
  obtain ⟨hc, hh⟩ := transferPositions_chain cfg buf polls hp
  refine ⟨?_, chain_append (by simpa using hc) (by simp [Chain, nextPos])⟩
  intro rx _
  cases ht : transferPositions cfg buf polls with
  | nil => simp [ht] at hh
  | cons x xs => simp [ht] at hh; simp [nextPos, hh]

theorem updatePositions_notInit {cfg : Config} {buf : Memory} {polls : Nat} {p : Pos}
    (h : p ∈ updatePositions cfg buf polls) : inInit p = false := by
  simp only [updatePositions, List.mem_cons, List.mem_append, List.not_mem_nil, or_false] at h
  rcases h with rfl | h | rfl | rfl | rfl <;> try rfl
  cases hs : cfg.strategy
  · simp only [transferPositions, hs] at h
    obtain ⟨t, -, ht⟩ := List.mem_flatMap.mp h
    unfold tickPositions at ht
    split at ht
    · simp at ht; rcases ht with rfl | rfl | rfl | rfl | rfl <;> rfl
    · split at ht <;> simp at ht
      · rcases ht with rfl | rfl | rfl <;> rfl
      · rcases ht with rfl | rfl <;> rfl
  · simp only [transferPositions, hs, List.mem_append, List.mem_flatMap, List.mem_singleton] at h
    rcases h with ⟨k, -, hk⟩ | rfl
    · simp [bitPositions] at hk; rcases hk with rfl | rfl | rfl <;> rfl
    · rfl
  · cases hf : cfg.framing <;> simp [transferPositions, hs, hf] at h
    · subst h; rfl
    · rcases h with rfl | rfl | ⟨m, -, rfl⟩ <;> rfl

theorem answersFit_good {cfg : Config} {polls : Nat} {as : List Answer} (h : answersFit cfg polls as) (m : Nat) (a : Answer)
    (hm : as[m]? = some a) : a.isOk = true ∧ pollGood cfg polls m (statusByte a) := h m a hm

/-- Only INIT issues a GenStart. -/
theorem genOnAfter_posOp (cfg : Config) (buf : Memory) {p : Pos} (h : inInit p = false) (ok g : Bool) :
    genOnAfter (posOp cfg buf p) ok g = g := by
  cases p with
  | init st => simp [inInit] at h
  | blankOff => simp [posOp]
  | blankOn => simp [posOp]
  | tick t e => cases e <;> rfl
  | bit t e => cases e <;> rfl
  | _ => rfl

/-- Only INIT issues a BusOpen. -/
theorem busOpenAfter_posOp (cfg : Config) (buf : Memory) {p : Pos} (h : inInit p = false) (ok b : Bool) :
    busOpenAfter (posOp cfg buf p) ok b = b := by
  cases p with
  | init st => simp [inInit] at h
  | blankOff => simp [posOp]
  | blankOn => simp [posOp]
  | tick t e => cases e <;> rfl
  | bit t e => cases e <;> rfl
  | _ => rfl

/-- Every operation of an UPDATE is that of a position of UPDATE. -/
theorem updateOps_posOp {cfg : Config} {buf : Memory} {polls : Nat} {op : Op} (h : op ∈ updateOps cfg buf polls) :
    ∃ p, inInit p = false ∧ op = posOp cfg buf p := by
  rw [← updatePositions_ops] at h
  obtain ⟨p, hp, rfl⟩ := List.mem_map.mp h
  exact ⟨p, updatePositions_notInit hp, rfl⟩

theorem updatePositions_length (cfg : Config) (buf : Memory) (polls : Nat) :
    (updatePositions cfg buf polls).length = (updateOps cfg buf polls).length := by
  rw [← updatePositions_ops cfg buf polls, List.length_map]

/-- A tick that shifts a stream bit (R103). -/
theorem tickOps_lt {n t : Nat} (buf : Memory) (h : t < 12 * n) :
    tickOps n buf t = .pinSet .data (Level.ofBit (streamBit n buf t)) :: (pulse .sclk ++ pulse .gsclk) := by
  rw [tickOps, if_pos (show t < nbits n from h)]

/-- The tick that drives DATA low (R103). -/
theorem tickOps_eq (n : Nat) (buf : Memory) : tickOps n buf (12 * n) = .pinSet .data .low :: pulse .gsclk := by
  rw [tickOps, if_neg (show ¬ 12 * n < nbits n from Nat.lt_irrefl _), if_pos (show 12 * n = nbits n from rfl)]
  rfl

/-- A later tick (R103). -/
theorem tickOps_gt {n t : Nat} (buf : Memory) (h : 12 * n < t) : tickOps n buf t = pulse .gsclk := by
  rw [tickOps, if_neg (show ¬ t < nbits n from by simp only [nbits]; omega),
    if_neg (show ¬ t = nbits n from by simp only [nbits]; omega)]
  rfl

theorem length_flatMap_range' {α : Type} (f : Nat → List α) (c : Nat) : ∀ k a,
    (∀ t, a ≤ t → t < a + k → (f t).length = c) → ((List.range' a k).flatMap f).length = c * k
  | 0, _, _ => by simp
  | k + 1, a, h => by
    simp only [List.range'_succ, List.flatMap_cons, List.length_append]
    rw [h a (by omega) (by omega), length_flatMap_range' f c k (a + 1) (fun t h1 h2 => h t (by omega) (by omega)),
      Nat.mul_succ]
    omega

theorem count_flatMap_range' (f : Nat → List Op) (c : Nat) (o : Op) : ∀ k a,
    (∀ t, a ≤ t → t < a + k → (f t).count o = c) → ((List.range' a k).flatMap f).count o = c * k
  | 0, _, _ => by simp
  | k + 1, a, h => by
    simp only [List.range'_succ, List.flatMap_cons, List.count_append]
    rw [h a (by omega) (by omega), count_flatMap_range' f c o k (a + 1) (fun t h1 h2 => h t (by omega) (by omega)),
      Nat.mul_succ]
    omega

/-- The transfer of strategy A: the ticks that shift, tick 12N, the ticks after it. -/
theorem transferA_split {n : Nat} {buf : Memory} (h : 12 * n < 4096) :
    transferA n buf =
      (List.range' 0 (12 * n)).flatMap (tickOps n buf) ++
        (tickOps n buf (12 * n) ++ (List.range' (12 * n + 1) (4095 - 12 * n)).flatMap (tickOps n buf)) := by
  have hs : List.range 4096 = List.range' 0 (12 * n) ++ (12 * n :: List.range' (12 * n + 1) (4095 - 12 * n)) := by
    rw [List.range_eq_range', ← List.range'_succ]
    have := @List.range'_append 0 (12 * n) (4095 - 12 * n + 1) 1
    simp only [Nat.zero_add, Nat.one_mul] at this
    rw [this]
    congr 1
    omega
  show (List.range 4096).flatMap _ = _
  rw [hs, List.flatMap_append, List.flatMap_cons]

end Sys2Proof.Machine
end

