-- ==== Sys2Proof/Laws/Stream.lean ====
section
/-! SUPPORT. Bits of the frame: which stream bit stands where on the wire. -/

namespace Sys2Proof.Machine

/-- Bit `7 - r` of a byte of the frame is its `r`-th bit on the wire (R46). -/
theorem frameByte_getLsbD (n : Nat) (buf : Memory) (j : Nat) {r : Nat} (h : r < 8) :
    (frameByte n buf j).getLsbD (7 - r) = frameBit n buf (8 * j + r) := by
  unfold frameByte byteOfBits
  rw [BitVec.getLsbD_ofBoolListBE]
  obtain rfl | rfl | rfl | rfl | rfl | rfl | rfl | rfl :
    r = 0 ∨ r = 1 ∨ r = 2 ∨ r = 3 ∨ r = 4 ∨ r = 5 ∨ r = 6 ∨ r = 7 := by omega
  all_goals rfl

@[simp] theorem pack_length (n : Nat) (buf : Memory) : (pack n buf).length = nbytes n := by simp [pack]

theorem pack_getElem? (n : Nat) (buf : Memory) {j : Nat} (h : j < nbytes n) :
    (pack n buf)[j]? = some (frameByte n buf j) := by
  simp [pack, List.getElem?_range h]

/-- Every bit of the frame is the frame bit of its place on the wire (R46, R49). -/
theorem wireBit_pack (n : Nat) (buf : Memory) {k : Nat} (h : k < 8 * nbytes n) :
    wireBit (pack n buf) k = frameBit n buf k := by
  have hj : k / 8 < nbytes n := by omega
  rw [wireBit, List.getD_eq_getElem?_getD, pack_getElem? n buf hj, Option.getD_some,
    frameByte_getLsbD n buf (k / 8) (Nat.mod_lt k (by omega)), Nat.div_add_mod]

theorem frameBit_of_lt (n : Nat) (buf : Memory) {k : Nat} (h : k < 12 * n) : frameBit n buf k = streamBit n buf k := by
  rw [frameBit, decide_eq_true (show k < nbits n from h), Bool.true_and]

theorem frameBit_of_ge (n : Nat) (buf : Memory) {k : Nat} (h : 12 * n ≤ k) : frameBit n buf k = false := by
  rw [frameBit, decide_eq_false (show ¬ k < nbits n from Nat.not_lt.mpr h), Bool.false_and]

/-- The bits of the frame in wire order. -/
theorem wireBits_pack (n : Nat) (buf : Memory) :
    wireBits (pack n buf) = (List.range (8 * nbytes n)).map (frameBit n buf) := by
  have hb : ∀ j, byteBits (frameByte n buf j) = (List.range' (8 * j) 8).map (frameBit n buf) := by
    intro j
    refine List.ext_getElem (by simp [byteBits]) ?_
    intro r h1 h2
    have hr : r < 8 := by simpa [byteBits] using h1
    simp [byteBits, frameByte_getLsbD n buf j hr]
  unfold pack
  generalize nbytes n = m
  induction m with
  | zero => rfl
  | succ m ih =>
    simp only [wireBits] at ih
    simp only [wireBits, List.range_succ, List.map_append, List.flatMap_append, ih, List.map_cons, List.map_nil,
      List.flatMap_cons, List.flatMap_nil, List.append_nil, hb]
    rw [Nat.mul_succ, List.range_eq_range', List.range_eq_range', ← List.map_append]
    congr 1
    have := @List.range'_append 0 (8 * m) 8 1
    simpa using this

/-- The frame on the wire is the stream and then the padding (R46, R49). -/
theorem wireBits_pack_eq (n : Nat) (buf : Memory) :
    wireBits (pack n buf) = stream n buf ++ List.replicate (8 * nbytes n - 12 * n) false := by
  rw [wireBits_pack]
  have h : 8 * nbytes n = 12 * n + (8 * nbytes n - 12 * n) := by simp only [nbytes]; omega
  refine List.ext_getElem (by simp [stream, nbits]; omega) ?_
  intro k h1 h2
  rw [List.getElem_map, List.getElem_range]
  by_cases hk : k < 12 * n
  · rw [frameBit_of_lt n buf hk, List.getElem_append_left (by simpa [stream, nbits] using hk)]
    simp [stream]
  · rw [frameBit_of_ge n buf (by omega), List.getElem_append_right (by simp [stream, nbits]; omega)]
    simp

/-- The sum of a number's low `k` bits, each in its place. -/
theorem sum_low_bits (x : Nat) : ∀ k, ((List.range k).map (fun b => (x.testBit b).toNat * 2 ^ b)).sum = x % 2 ^ k
  | 0 => by simp [Nat.mod_one]
  | k + 1 => by
    rw [List.range_succ, List.map_append, List.sum_append, sum_low_bits x k, Nat.pow_succ, Nat.mod_mul]
    simp only [List.map_cons, List.map_nil, List.sum_cons, List.sum_nil, Nat.add_zero]
    rw [Nat.testBit_eq_decide_div_mod_eq, Nat.mul_comm]
    rcases Nat.mod_two_eq_zero_or_one (x / 2 ^ k) with h | h <;> simp [h]

/-- The shift register after a run of data bits (R52). -/
theorem shiftIn_foldl_sr (n : Nat) : ∀ (bs : List Bool) (r : Receiver), 0 < bs.length →
    (bs.foldl (Receiver.shiftIn n) r).sr = (bs.reverse ++ r.sr).take (nbits n)
  | [], _, h => by simp at h
  | [b], r, _ => by simp [Receiver.shiftIn]
  | b :: c :: bs, r, _ => by
    rw [List.foldl_cons, shiftIn_foldl_sr n (c :: bs) _ (by simp)]
    simp only [Receiver.shiftIn, List.reverse_cons, List.append_assoc]
    have key : ∀ (x y : List Bool) (m : Nat), (x ++ y.take m).take m = (x ++ y).take m := by
      intro x y m
      rw [List.take_append, List.take_append, List.take_take]
      congr 2
      omega
    simpa [List.append_assoc] using key (bs.reverse ++ [c]) (b :: r.sr) (nbits n)

end Sys2Proof.Machine
end

