-- ==== Sys2Proof/Tests/Slice0.lean ====
section
/-! SUPPORT. Tests against 95_test_vectors.md and the encodings of 30_encoding.md, each about one step or one word, and
for each statement with hypotheses a named witness that meets them. -/

namespace Sys2Proof.Tests.Slice0

open Sys2Proof Sys2Proof.Machine

/-! Well-formedness: an operand that does not fit its field is refused (R76). -/

theorem test_setChannel_4096_refused : (Instr.setChannel 4096 0).wellFormed = false ∧
    assemble (.setChannel 4096 0) = none := by decide

theorem test_readChannel_4096_refused : (Instr.readChannel 4096).wellFormed = false ∧
    assemble (.readChannel 4096) = none := by decide

theorem test_fields_at_their_ends_accepted : (Instr.setChannel 4095 0xFFFF).wellFormed = true ∧
    (Instr.readChannel 0).wellFormed = true := by decide

/-! Decoding: words written out from R62 to R67, bit by bit: op 4 bits, idx 12 bits, val 16 bits. -/

theorem test_decode_init : decode 0b0001_000000000000_0000000000000000 = .ok .init := rfl

theorem test_decode_setChannel :
    decode 0b0010_000000000011_0000100100001000 = .ok (.setChannel 3 2312) := rfl

theorem test_decode_setAll : decode 0b0011_000000000000_0000111111111111 = .ok (.setAll 0x0FFF) := rfl

theorem test_decode_clear : decode 0b0100_000000000000_0000000000000000 = .ok .clear := rfl

theorem test_decode_update : decode 0b0101_000000000000_0000000000000000 = .ok .update := rfl

theorem test_decode_readChannel : decode 0b0110_111111111111_0000000000000000 = .ok (.readChannel 4095) := rfl

/-- The illegal words of 95_test_vectors.md 2.1. -/
theorem test_decode_illegal :
    [0x00000000, 0x10000001, 0x1FFFFFFF, 0x30010000, 0x40000001, 0x58000000, 0x60030001, 0x70000000, 0x80000000,
      0xF0000000].all (fun w => (decodeTableWord 32 w).isNone) = true := by decide

theorem test_tableWord : decodeTableWord 32 0x20030908 = some (.setChannel 3 0x0908) := rfl

/-! Response words: 95_test_vectors.md 2.2. -/

theorem test_responses : okWord 0xF123 = 0x0000F123 ∧ ioErrorWord .gsclk = 0x15000000 ∧
    configErrorWord = 0x20000000 ∧ faultedWord ⟨.indexOob, 48⟩ = 0xF0030030 := by decide

/-! Frames: 95_test_vectors.md 2.5, P2, P4 and P5. -/

theorem test_pack_P2 : pack 1 [(0, 0xF123)] = [0x12, 0x30] := by decide

theorem test_pack_P4 : pack 2 [(0, 0x123), (1, 0x456)] = [0x45, 0x61, 0x23] := by decide

theorem test_pack_P5 : pack 3 [(0, 0xFFF)] = [0x00, 0x00, 0x00, 0xFF, 0xF0] := by decide

/-! Small configurations and states. -/

/-- A configuration for tests: Ok for every rule of R81, of a strategy, a size and a framing. -/
def conf (st : Strategy) (n : Nat) (fr : Framing) : Config :=
  { Config.reference with strategy := st, n := n, framing := fr }

/-- A state in a phase, with a buffer, the words offered, and every answer Ok. -/
def at_ (cfg : Config) (ph : Phase) (buf : Memory) (ws : List Word) : State :=
  { State.resetFor cfg with phase := ph, buf := buf, offers := ws, env := ⟨[], [.ok 0 0]⟩ }

/-- READY, N = 48, strategy C, a word offered. -/
def ready48 (buf : Memory) (w : Word) : State := at_ (conf .C 48 .none) .ready buf [w]

/-- FAULTED with INDEX_OOB 48 recorded. -/
def faulted48 (w : Word) : State := { at_ (conf .C 48 .none) .faulted [] [w] with fault := ⟨.indexOob, 48⟩ }

/-- A running UPDATE at a position, with the next answers given. -/
def running (cfg : Config) (p : Pos) (as : List Answer) : State :=
  { State.resetFor cfg with
    phase := .busy
    seq := some p
    env := ⟨as, []⟩
    genOn := decide (cfg.strategy ≠ .A)
    busOpen := decide (cfg.strategy = .C)
    lvl := { Levels.unknown with blank := .driven (offLevel cfg) } }

/-- Does one step answer a next state of which `p` holds? -/
def stepsTo (s : State) (p : State → Bool) : Bool :=
  match step s with
  | .next t => p t
  | _ => false

/-! One step of each command: 95_test_vectors.md 2.3, 2.4, 2.6. -/

/-- I7: a framed configuration with WIP_MASK 0. -/
theorem test_init_I7 :
    stepsTo (at_ { conf .C 48 .wrenPoll with wipMask := 0 } .ready [(0, 5)] [0x10000000])
      (fun t => t.resp == some 0x20000000 && decide (t.phase = .uninit) && decide (t.buf = [(0, 5)])) = true := by
  decide

/-- I8, its first step: the buffer is cleared, and the first operation is DATA's. -/
theorem test_init_I8 :
    stepsTo (at_ (conf .B 2 .none) .ready [(0, 5), (1, 6)] [0x10000000])
      (fun t => decide (t.phase = .busy) && decide (t.buf = []) && decide (t.seq = some (.init .data)) &&
        t.traceRev.isEmpty) = true := by
  decide

/-- M3. -/
theorem test_setChannel_M3 :
    stepsTo (ready48 [] 0x202FF123) (fun t => t.resp == some 0 && decide (t.buf = [(47, 0xF123)])) = true := by decide

/-- M5. -/
theorem test_setChannel_M5 :
    stepsTo (ready48 [] 0x20300001)
      (fun t => t.resp == some 0xF0030030 && decide (t.phase = .faulted) && decide (t.buf = [])) = true := by decide

/-- M7, for N = 2. -/
theorem test_setAll_M7 :
    stepsTo (at_ (conf .C 2 .none) .ready [(1, 7)] [0x30000FFF])
      (fun t => t.resp == some 0 && decide (t.buf = [(0, 0x0FFF), (1, 0x0FFF)])) = true := by decide

/-- M8. -/
theorem test_clear_M8 :
    stepsTo (ready48 [(0, 0x0FFF), (47, 0x0FFF)] 0x40000000) (fun t => t.resp == some 0 && decide (t.buf = [])) = true := by
  decide

/-- M10: CLEAR in FAULTED is answered with the stored fault. -/
theorem test_clear_M10 :
    stepsTo (faulted48 0x40000000) (fun t => t.resp == some 0xF0030030 && decide (t.phase = .faulted)) = true := by decide

/-- M4. -/
theorem test_readChannel_M4 :
    stepsTo (ready48 [(47, 0xF123)] 0x602F0000) (fun t => t.resp == some 0x0000F123) = true := by decide

/-- M6. -/
theorem test_readChannel_M6 :
    stepsTo (ready48 [] 0x6FFF0000) (fun t => t.resp == some 0xF0030FFF) = true := by decide

/-- Program 5: UPDATE before INIT. -/
theorem test_update_before_init :
    stepsTo (at_ (conf .B 4 .none) .uninit [] [0x50000000])
      (fun t => t.resp == some 0xF0020000 && decide (t.phase = .faulted)) = true := by decide

/-- U9, its last step: the frame's BusWrite is answered Err. -/
theorem test_update_U9 :
    stepsTo (running (conf .C 48 .none) (.frame (pack 48 [])) [.err])
      (fun t => t.resp == some 0x16000000 && decide (t.phase = .ready)) = true := by decide

/-- A table word stored with `withFetchWord` is the one the next step runs (M9, from the reset state). -/
theorem test_withFetchWord :
    stepsTo (State.reset.withFetchWord 32 0x20000001)
      (fun t => t.resp == some 0xF0020000 && decide (t.phase = .faulted)) = true := by decide

/-! Witnesses: for each statement with hypotheses, a concrete state and operands that meet them all. -/

theorem conf_valid : configValid (conf .A 2 .none) = true ∧ configValid (conf .A 341 .none) = true ∧
    configValid (conf .B 1 .none) = true ∧ configValid (conf .C 4096 .none) = true ∧
    configValid (conf .C 48 .none) = true ∧ configValid (conf .C 3 .wrenPoll) = true ∧
    configValid (conf .C 2 .wrenPoll) = true := by decide

theorem conf_invalid : configValid (conf .A 342 .none) = false ∧ configValid (conf .C 0 .none) = false ∧
    configValid (conf .C 4097 .none) = false ∧ configValid (conf .B 1 .wrenPoll) = false := by decide

/-- A READY state of strategy A meets the invariant. -/
theorem inv_ready (ws : List Word) : Inv (at_ (conf .A 2 .none) .ready [(1, 7)] ws) where
  canonical := rfl
  inRange := rfl
  busyPos := by simp [at_, State.resetFor]
  posOk := by simp [at_, State.resetFor]
  faultedCause := by simp [at_, State.resetFor, FaultRecord.clear]
  infoZero := by simp [at_, State.resetFor, FaultRecord.clear]
  infoOob := by simp [at_, State.resetFor, FaultRecord.clear]
  configOk := fun _ => conf_valid.1
  generatorRuns := fun _ h => absurd rfl h
  generatorFirst := by simp [at_, State.resetFor]
  busRuns := by intro _ h; simp [at_, State.resetFor, conf] at h
  generatorExists := by simp [at_, State.resetFor]
  busExists := by simp [at_, State.resetFor]
  levelsOwned := by intro sig _; cases sig <;> rfl

/-- A FAULTED state meets the invariant. -/
theorem inv_faulted (w : Word) : Inv (faulted48 w) where
  canonical := rfl
  inRange := rfl
  busyPos := by simp [faulted48, at_, State.resetFor]
  posOk := by simp [faulted48, at_, State.resetFor]
  faultedCause := by simp [faulted48, at_]
  infoZero := by simp [faulted48]
  infoOob := by simp [faulted48, at_, State.resetFor, conf]
  configOk := fun _ => conf_valid.2.2.2.2.1
  generatorRuns := by rintro (h | ⟨p, h, -⟩) <;> simp [faulted48, at_, State.resetFor] at h
  generatorFirst := by simp [faulted48, at_, State.resetFor]
  busRuns := by rintro (h | ⟨p, h, -⟩) <;> simp [faulted48, at_, State.resetFor] at h
  generatorExists := by simp [faulted48, at_, State.resetFor]
  busExists := by simp [faulted48, at_, State.resetFor]
  levelsOwned := by intro sig _; cases sig <;> rfl

/-- A BUSY state at a position of its strategy meets the invariant. -/
theorem inv_running (cfg : Config) (p : Pos) (as : List Answer) (hv : configValid cfg = true)
    (hp : posAllowed cfg [] p = true) : Inv (running cfg p as) where
  canonical := rfl
  inRange := rfl
  busyPos := by simp [running]
  posOk := by intro q hq; simp [running] at hq; subst hq; exact hp
  faultedCause := by simp [running, State.resetFor, FaultRecord.clear]
  infoZero := by simp [running, State.resetFor, FaultRecord.clear]
  infoOob := by simp [running, State.resetFor, FaultRecord.clear]
  configOk := fun _ => hv
  generatorRuns := fun _ h => decide_eq_true h
  generatorFirst := by
    intro h
    simp [running] at h
    subst h
    simp only [posAllowed, decide_eq_true_eq] at hp
    simp [running, hp]
  busRuns := fun _ h => decide_eq_true h
  generatorExists := fun h => of_decide_eq_true h
  busExists := fun h => of_decide_eq_true h
  levelsOwned := by intro sig h; cases sig <;> first | rfl | simp [ownsOutput] at h

/-- Unpolled answers that are all Ok let an UPDATE go on. -/
theorem answersFit_replicate (cfg : Config) (polls k : Nat) (h : polled cfg = false) :
    answersFit cfg polls (List.replicate k (.ok 0 0)) := by
  intro i a ha
  have := List.eq_of_mem_replicate (List.mem_of_getElem? ha)
  subst this
  exact ⟨rfl, by simp [h]⟩

/-- The answers of a framed UPDATE: three operations, two polls in progress and one that is not, three operations. -/
def polledAnswers : List Answer :=
  [.ok 0 0, .ok 0 0, .ok 0 0, .ok 0 1, .ok 0 1, .ok 0 0, .ok 0 0, .ok 0 0, .ok 0 0]

theorem answersFit_polled : answersFit (conf .C 2 .wrenPoll) 3 polledAnswers := by
  intro i a ha
  have : i < 9 := (List.getElem?_eq_some_iff.mp ha).1
  obtain rfl | rfl | rfl | rfl | rfl | rfl | rfl | rfl | rfl :
    i = 0 ∨ i = 1 ∨ i = 2 ∨ i = 3 ∨ i = 4 ∨ i = 5 ∨ i = 6 ∨ i = 7 ∨ i = 8 := by omega
  all_goals
    simp only [polledAnswers, List.getElem?_cons_zero, List.getElem?_cons_succ, Option.some.injEq] at ha
    subst ha
    decide

/-- ResetFromAnyState: reset in the middle of an UPDATE; a step in FAULTED. -/
theorem witness_ResetFromAnyState :
    ({ running (conf .A 2 .none) (.tick 5 .sclkHigh) [] with resetLine := true } : State).resetLine = true ∧
    ∃ t, (faulted48 0x10000000).resetLine = false ∧ (faulted48 0x10000000).phase = .faulted ∧
      step (faulted48 0x10000000) = .next t :=
  ⟨rfl, _, rfl, rfl, rfl⟩

theorem witness_DecodeOfEncodeIsIdentity : (Instr.setChannel 0 0).wellFormed = true ∧
    (Instr.setChannel 4095 0xFFFF).wellFormed = true ∧ (Instr.readChannel 4095).wellFormed = true ∧
    (Instr.setAll 0xFFFF).wellFormed = true ∧ Instr.init.wellFormed = true := by decide

theorem witness_EncodeOfDecodeIsIdentity : decode 0x2FFFFFFF = .ok (.setChannel 4095 0xFFFF) ∧
    decode 0x60000000 = .ok (.readChannel 0) := ⟨rfl, rfl⟩

theorem witness_DecodeFollowsOpcodeRows :
    decode 0x20000000 = .ok (.setChannel 0 0) ∧ decode 0x2FFFFFFF = .ok (.setChannel 4095 0xFFFF) ∧
    decode 0x3000FFFF = .ok (.setAll 0xFFFF) ∧ decode 0x6FFF0000 = .ok (.readChannel 4095) ∧
    decode 0x30010000 = .error (.mustBeZero 3) ∧
    ((⟨"CLEAR", 0x40000000, 0xFFFFFFFF⟩ : OpcodeRow) ∈ opcodeRows ∧
      (0x40000000 : Word) &&& 0xFFFFFFFF = 0x40000000) :=
  ⟨rfl, rfl, rfl, rfl, rfl, by decide, by decide⟩

/-- StepRunsTheDecodedCommand, in UNINIT, READY and FAULTED. -/
theorem witness_StepRunsTheDecodedCommand :
    [at_ (conf .C 48 .none) .uninit [] [0x10000000], ready48 [] 0x10000000, faulted48 0x10000000].all (fun s =>
      !s.resetLine && decide (s.phase ≠ .busy) && decide (s.offers = [0x10000000])) = true ∧
    decode 0x10000000 = .ok .init := ⟨by decide, rfl⟩

/-- IllegalWordRaisesFault, in UNINIT and READY. -/
theorem witness_IllegalWordRaisesFault :
    [at_ (conf .C 48 .none) .uninit [] [0x70000000], ready48 [] 0x70000000].all (fun s =>
      !s.resetLine && decide (s.phase = .uninit ∨ s.phase = .ready) && decide (s.fault.cause = .none) &&
        decide (s.offers = [0x70000000])) = true ∧
    decode 0x70000000 = .error (.reservedOp 7) := ⟨by decide, rfl⟩

theorem witness_FaultedAnswersEveryWord : (faulted48 0x10000000).resetLine = false ∧
    (faulted48 0x10000000).phase = .faulted ∧ (faulted48 0x10000000).offers = [0x10000000] := ⟨rfl, rfl, rfl⟩

theorem witness_CommandBeforeInitRaisesFault : Instr.update ≠ .init ∧ State.reset.phase = .uninit ∧
    State.reset.fault.cause = .none := by decide

/-- SetChannelWritesOneEntry: the last index in range, the first out of range, the last of the field. -/
theorem witness_SetChannelWritesOneEntry :
    (ready48 [(3, 1)] 0).phase = .ready ∧ (ready48 [(3, 1)] 0).buf.wf = true ∧ 47 < (ready48 [(3, 1)] 0).cfg.n ∧
    (ready48 [] 0).fault.cause = .none ∧ (ready48 [] 0).cfg.n ≤ 48 ∧ 48 ≤ 4095 ∧ (ready48 [] 0).cfg.n ≤ 4095 := by
  decide

theorem witness_SetAllWritesEveryEntry : (ready48 [] 0).phase = .ready ∧ 47 < (ready48 [] 0).cfg.n := by decide

theorem witness_ClearSetsEveryEntryToZero : (ready48 [(3, 1)] 0).phase = .ready ∧ 0 < (ready48 [(3, 1)] 0).cfg.n := by
  decide

/-- ReadChannelReturnsTheEntry: as for SET_CHANNEL. -/
theorem witness_ReadChannelReturnsTheEntry :
    (ready48 [(3, 1)] 0).phase = .ready ∧ 47 < (ready48 [(3, 1)] 0).cfg.n ∧
    (ready48 [] 0).fault.cause = .none ∧ (ready48 [] 0).cfg.n ≤ 48 ∧ 48 ≤ 4095 ∧ (ready48 [] 0).cfg.n ≤ 4095 := by
  decide

theorem witness_BufferCommandsTouchNoOutput : ∃ t u,
    exec (.setAll 7) (ready48 [] 0) = .next t ∧ exec (.readChannel 48) (ready48 [] 0) = .next u ∧
    Instr.setAll 7 ≠ .init ∧ Instr.readChannel 48 ≠ .update :=
  ⟨_, _, rfl, rfl, by decide, by decide⟩

theorem witness_ReadAfterSetAnswersTheValue :
    ∃ s : State, s.resetLine = false ∧ s.phase = .ready ∧ s.buf.wf = true ∧ 47 < s.cfg.n ∧ 47 ≤ 4095 ∧
      s.offers = [encode (.setChannel 47 0xF123), encode (.readChannel 47)] :=
  ⟨at_ (conf .C 48 .none) .ready [] [encode (.setChannel 47 0xF123), encode (.readChannel 47)],
    rfl, rfl, rfl, by decide, by decide, rfl⟩

theorem witness_SetAllEqualsSettingEveryChannel : ∃ s : State, Inv s ∧ s.resetLine = false ∧ s.phase = .ready :=
  ⟨_, inv_ready [], rfl, rfl⟩

theorem witness_InvalidConfigurationEndsInit :
    (at_ (conf .A 342 .none) .uninit [] []).phase = .uninit ∧ (at_ (conf .A 342 .none) .ready [] []).phase = .ready ∧
    configValid (at_ (conf .A 342 .none) .ready [] []).cfg = false := ⟨rfl, rfl, conf_invalid.1⟩

/-- InitRunsItsOperations and InitLeavesOutputsIdle, in each strategy. -/
theorem witness_InitRunsItsOperations :
    ∀ cfg ∈ [conf .A 2 .none, conf .B 1 .none, conf .C 48 .none], ∃ as rest t u,
      (at_ cfg .uninit [] []).phase = .uninit ∧ (at_ cfg .uninit [] []).resetLine = false ∧
      configValid (at_ cfg .uninit [] []).cfg = true ∧
      takeAnswers (initOutputs cfg).length (at_ cfg .uninit [] []).env = some (as, rest) ∧
      (∀ a ∈ as, a.isOk = true) ∧
      exec .init (at_ cfg .uninit [] []) = .next t ∧ runSteps (initOutputs cfg).length t = .next u := by
  intro cfg h
  simp only [List.mem_cons, List.not_mem_nil, or_false] at h
  rcases h with rfl | rfl | rfl <;>
    exact ⟨_, _, _, _, rfl, rfl, by decide, rfl, by decide, rfl, rfl⟩

/-- InitStopsAtFirstError, at the first and at the last operation. -/
theorem witness_InitStopsAtFirstError : ∀ j ∈ [0, 3], ∃ (s : State) (op : Op) (as : List Answer) (rest : Env),
    s.phase = .ready ∧ s.resetLine = false ∧ configValid s.cfg = true ∧ (initOutputs s.cfg)[j]? = some op ∧
    takeAnswers (j + 1) s.env = some (as ++ [.err], rest) ∧ (∀ a ∈ as, a.isOk = true) := by
  intro j h
  simp only [List.mem_cons, List.not_mem_nil, or_false] at h
  rcases h with rfl | rfl
  · exact ⟨{ ready48 [] 0 with env := ⟨[.err], []⟩ }, _, [], _, rfl, rfl, by decide, rfl, rfl, by decide⟩
  · exact ⟨{ ready48 [] 0 with env := ⟨[.ok 0 0, .ok 0 0, .ok 0 0, .err], []⟩ }, _, [.ok 0 0, .ok 0 0, .ok 0 0], _,
      rfl, rfl, by decide, rfl, rfl, by decide⟩

/-- UpdateRunsItsOperations and UpdateLeavesOutputsIdle, unpolled, in each strategy. -/
theorem witness_UpdateRunsItsOperations :
    ∀ cfg ∈ [conf .A 341 .none, conf .B 1 .none, conf .C 48 .none], ∃ as rest,
      (at_ cfg .ready [] []).phase = .ready ∧ (at_ cfg .ready [] []).resetLine = false ∧ configValid cfg = true ∧
      (polled cfg = true → 1 ≤ 0) ∧
      takeAnswers (updateOps cfg [] 0).length (at_ cfg .ready [] []).env = some (as, rest) ∧ answersFit cfg 0 as := by
  intro cfg h
  have hp : polled cfg = false ∧ configValid cfg = true := by
    simp only [List.mem_cons, List.not_mem_nil, or_false] at h
    rcases h with rfl | rfl | rfl <;> decide
  exact ⟨_, _, rfl, rfl, hp.2, by simp [hp.1], takeAnswers_always _ _, answersFit_replicate _ _ _ hp.1⟩

/-- The same, framed, with three polls; and the next states that UpdateLeavesOutputsIdle asks for. -/
theorem witness_UpdateLeavesOutputsIdle :
    let s : State := { at_ (conf .C 2 .wrenPoll) .ready [(0, 0x123), (1, 0x456)] [] with env := ⟨polledAnswers, []⟩ }
    ∃ as rest t u, s.phase = .ready ∧ s.resetLine = false ∧ configValid s.cfg = true ∧
      (polled s.cfg = true → 1 ≤ 3) ∧ takeAnswers (updateOps s.cfg s.buf 3).length s.env = some (as, rest) ∧
      answersFit s.cfg 3 as ∧ exec .update s = .next t ∧ runSteps (updateOps s.cfg s.buf 3).length t = .next u :=
  ⟨polledAnswers, _, _, _, rfl, rfl, conf_valid.2.2.2.2.2.2, by decide, rfl, answersFit_polled, rfl, rfl⟩

/-- UpdateStopsAtFirstError, at the first operation and at the third (U8). -/
theorem witness_UpdateStopsAtFirstError : ∀ j ∈ [0, 2], ∃ (s : State) (op : Op) (as : List Answer) (rest : Env),
    s.phase = .ready ∧ s.resetLine = false ∧ (polled s.cfg = true → 1 ≤ 0) ∧
    (updateOps s.cfg s.buf 0)[j]? = some op ∧
    takeAnswers (j + 1) s.env = some (as ++ [.err], rest) ∧ answersFit s.cfg 0 as := by
  intro j h
  simp only [List.mem_cons, List.not_mem_nil, or_false] at h
  rcases h with rfl | rfl
  · exact ⟨{ at_ (conf .B 1 .none) .ready [] [] with env := ⟨[.err], []⟩ }, _, [], _, rfl, rfl, by decide, rfl, rfl,
      answersFit_replicate _ 0 0 rfl⟩
  · exact ⟨{ at_ (conf .B 1 .none) .ready [] [] with env := ⟨[.ok 0 0, .ok 0 0, .err], []⟩ }, _,
      [.ok 0 0, .ok 0 0], _, rfl, rfl, by decide, rfl, rfl, answersFit_replicate _ 0 2 rfl⟩

theorem witness_RetriedUpdateCompletes :
    let s : State := { at_ (conf .C 48 .none) .ready [] [] with env := ⟨[.ok 0 0, .err], [.ok 0 0]⟩ }
    ∃ op mid as' rest, s.phase = .ready ∧ s.resetLine = false ∧ (polled s.cfg = true → 1 ≤ 0 ∧ 1 ≤ 0) ∧
      (updateOps s.cfg s.buf 0)[1]? = some op ∧
      takeAnswers (1 + 1) s.env = some ([.ok 0 0] ++ [.err], mid) ∧ answersFit s.cfg 0 [.ok 0 0] ∧
      takeAnswers (updateOps s.cfg s.buf 0).length mid = some (as', rest) ∧ answersFit s.cfg 0 as' :=
  ⟨_, _, _, _, rfl, rfl, by decide, rfl, rfl, answersFit_replicate _ 0 1 rfl, takeAnswers_always _ _,
    answersFit_replicate _ 0 _ rfl⟩

theorem witness_StatusPollHasNoBound :
    let s : State := running (conf .C 2 .wrenPoll) (.poll 7) [.ok 0 1, .ok 9 3]
    ∃ rest, s.phase = .busy ∧ s.seq = some (.poll 7) ∧ s.resetLine = false ∧
      takeAnswers 2 s.env = some ([.ok 0 1, .ok 9 3], rest) ∧
      ∀ a ∈ [Answer.ok 0 1, Answer.ok 9 3], a.isOk = true ∧ writeInProgress s.cfg (statusByte a) = true :=
  ⟨_, rfl, rfl, rfl, rfl, by decide⟩

/-- UpdateOperationCounts, StrategyAPulses, StrategyBAndCOperations and UpdateDeliversTheBuffer, each clause. -/
theorem witness_UpdateOperationCounts :
    (configValid (conf .A 341 .none) = true ∧ (conf .A 341 .none).strategy = .A) ∧
    (configValid (conf .B 1 .none) = true ∧ (conf .B 1 .none).strategy = .B) ∧
    (configValid (conf .C 4096 .none) = true ∧ (conf .C 4096 .none).strategy = .C ∧
      (conf .C 4096 .none).framing = .none ∧ (conf .C 4096 .none).n % 2 = 0) ∧
    (configValid (conf .C 3 .wrenPoll) = true ∧ (conf .C 3 .wrenPoll).strategy = .C ∧
      (conf .C 3 .wrenPoll).framing = .wrenPoll ∧ (conf .C 3 .wrenPoll).n % 2 = 1) ∧
    (configValid (conf .C 2 .wrenPoll) = true ∧ (conf .C 2 .wrenPoll).strategy = .C ∧
      (conf .C 2 .wrenPoll).framing = .wrenPoll ∧ (conf .C 2 .wrenPoll).n % 2 = 0 ∧
      16 * 1 + 7 < 12 * (conf .C 2 .wrenPoll).n) := by decide

/-- BlankSetIsOneOperation: both levels and both kinds. -/
theorem witness_BlankSetIsOneOperation : Config.reference.blankOffLevel = 1 ∧ Config.reference.blankKind = .pin ∧
    ({ Config.reference with blankOffLevel := 0 } : Config).blankOffLevel = 0 ∧
    ({ Config.reference with blankKind := .generator } : Config).blankKind = .generator := by decide

theorem witness_GreyscaleClockUntouched : (conf .B 1 .none).strategy ≠ .A ∧
    (∃ op, op ∈ updateOps (conf .B 1 .none) [] 0) ∧
    posAllowed (conf .A 341 .none) [] (.tick 4095 .gsclkLow) = true ∧ inInit (.tick 4095 .gsclkLow) = false ∧
    (posOp (conf .A 341 .none) [] (.tick 4095 .gsclkLow)).signal = .gsclk :=
  ⟨by decide, ⟨blankSet (conf .B 1 .none) (offLevel (conf .B 1 .none)), List.mem_cons_self⟩, by decide, by decide,
    by decide⟩

/-- StreamOrder, FrameCarriesTheStream and UnpackingTheFrameGivesTheEntries: the ends of their ranges, N odd and even. -/
theorem witness_StreamOrder : 0 < 3 ∧ 2 < 3 ∧ 0 < 12 ∧ 11 < 12 ∧ 3 % 2 = 1 ∧ 2 % 2 = 0 ∧ 35 < 12 * 3 ∧ 3 < 4 := by decide

/-- HighBitsAreNeverSent: P2 and P3. -/
theorem witness_HighBitsAreNeverSent : ∀ i, i < (conf .C 1 .none).n →
    (Memory.read [(0, 0xF123)] i).extractLsb' 0 12 = (Memory.read [(0, 0x0123)] i).extractLsb' 0 12 := by
  intro i h
  have : i = 0 := Nat.lt_one_iff.mp h
  subst this
  decide

/-- LevelsFollowTheAnswers: a PinSet, a GenDuty and an operation that is neither. -/
theorem witness_LevelsFollowTheAnswers : Signal.sclk ≠ .bus ∧
    posOp (conf .B 1 .none) [] (.bit 11 .sclkHigh) = .pinSet .sclk .high ∧
    posOp { conf .B 1 .none with blankKind := .generator } [] .blankOn = .genDuty .blank (dutyOf .low) ∧
    (∀ l, posOp (conf .C 1 .none) [] (.frame []) ≠ .pinSet .sclk l) ∧
    (∀ d, posOp (conf .C 1 .none) [] (.frame []) ≠ .genDuty .sclk d) :=
  ⟨by decide, rfl, rfl, fun _ h => (by cases h), fun _ h => (by cases h)⟩

/-- InterruptedPulseLeavesUnknown, for each of the three lines. -/
theorem witness_InterruptedPulseLeavesUnknown :
    ∀ c ∈ [(Pos.tick 0 .sclkHigh, Signal.sclk), (.tick 4095 .gsclkHigh, .gsclk), (.latchHigh, .latch)],
      let s : State := running (conf .A 2 .none) c.1 [.ok 0 0, .err]
      ∃ rest, s.phase = .busy ∧ s.resetLine = false ∧ s.seq = some c.1 ∧ inInit c.1 = false ∧
        posOp s.cfg s.buf c.1 = .pinSet c.2 .high ∧ (c.2 = .sclk ∨ c.2 = .gsclk ∨ c.2 = .latch) ∧
        takeAnswers 2 s.env = some ([.ok 0 0, .err], rest) := by
  intro c h
  simp only [List.mem_cons, List.not_mem_nil, or_false] at h
  rcases h with rfl | rfl | rfl <;> exact ⟨_, rfl, rfl, rfl, rfl, rfl, by decide, rfl⟩

/-- Does one step, without reset, lead from the phase to the phase? -/
def leads (s : State) (p q : Phase) : Bool :=
  !s.resetLine && decide (s.phase = p) && stepsTo s (fun t => decide (t.phase = q))

/-- PhaseTransitions, each clause: FAULTED stays; UNINIT to BUSY, and to FAULTED by an illegal word and by CLEAR; READY to
UNINIT, to BUSY by INIT and by UPDATE, to FAULTED by an illegal word and by the first index out of range, written and
read; BUSY to UNINIT and to READY, by an error and at the end of a command. -/
theorem witness_PhaseTransitions :
    leads (faulted48 0x10000000) .faulted .faulted = true ∧
    leads (at_ (conf .C 48 .none) .uninit [] [0x10000000]) .uninit .busy = true ∧
    leads (at_ (conf .C 48 .none) .uninit [] [0x70000000]) .uninit .faulted = true ∧
    leads (at_ (conf .C 48 .none) .uninit [] [0x40000000]) .uninit .faulted = true ∧
    leads (at_ (conf .A 342 .none) .ready [] [0x10000000]) .ready .uninit = true ∧
    leads (ready48 [] 0x10000000) .ready .busy = true ∧ leads (ready48 [] 0x50000000) .ready .busy = true ∧
    leads (ready48 [] 0x60030001) .ready .faulted = true ∧ leads (ready48 [] 0x20300001) .ready .faulted = true ∧
    leads (ready48 [] 0x60300000) .ready .faulted = true ∧
    leads (running (conf .C 48 .none) (.init .blank) [.err]) .busy .uninit = true ∧
    leads (running (conf .C 48 .none) (.init .busOpen) [.ok 0 0]) .busy .ready = true ∧
    leads (running (conf .C 48 .none) .latchHigh [.err]) .busy .ready = true ∧
    leads (running (conf .C 48 .none) .blankOn [.ok 0 0]) .busy .ready = true := by decide

/-- The other statements about a step without reset (FirstFaultIsKept, GeneratorAndBusStayOn, ConfigurationIsNeverWritten,
OneResponsePerAcceptedWord): a step in each phase, one of which records a fault. -/
theorem witness_FirstFaultIsKept :
    ∀ s ∈ [at_ (conf .C 48 .none) .uninit [] [0x70000000], ready48 [] 0x50000000, faulted48 0x10000000,
        running (conf .C 48 .none) (.frame (pack 48 [])) [.err]],
      s.resetLine = false ∧ ∃ t, step s = .next t := by
  intro s h
  simp only [List.mem_cons, List.not_mem_nil, or_false] at h
  rcases h with rfl | rfl | rfl | rfl <;> exact ⟨rfl, _, rfl⟩

theorem witness_IdleEngineHoldsItsState : State.reset.resetLine = false ∧ State.reset.phase ≠ .busy ∧
    State.reset.offers = [] ∧ (at_ (conf .B 1 .none) .ready [(0, 1)] []).offers = [] := by decide

theorem witness_PortIsClosedWhileBusy : (running (conf .C 48 .none) .latchLow [.ok 0 0]).phase = .busy ∧
    ∃ t, step (running (conf .C 48 .none) .latchLow [.ok 0 0]) = .next t := ⟨rfl, _, rfl⟩

/-- GeneratorAndBusStayOn: the generator and the bus go on, and are on already. -/
theorem witness_GeneratorAndBusStayOn : ∃ t u v : State,
    step (running (conf .B 1 .none) (.init .genStart) [.ok 0 0]) = .next t ∧ t.genOn = true ∧
    step (running (conf .C 48 .none) (.init .busOpen) [.ok 0 0]) = .next u ∧ u.busOpen = true ∧
    step (running (conf .C 48 .none) .latchHigh [.ok 0 0]) = .next v ∧
    (running (conf .C 48 .none) .latchHigh [.ok 0 0]).genOn = true :=
  ⟨_, _, _, rfl, rfl, rfl, rfl, rfl, rfl⟩

theorem witness_BufferChangesOnlyByItsCommands : ∃ t, (ready48 [] 0x202FF123).resetLine = false ∧
    step (ready48 [] 0x202FF123) = .next t ∧ t.buf ≠ (ready48 [] 0x202FF123).buf :=
  ⟨_, rfl, rfl, by decide⟩

/-- EveryStepKeepsTheInvariant, StepNeverStops and OneOperationAtATime: states with the invariant in READY, FAULTED, in
INIT and in UPDATE. -/
theorem witness_EveryStepKeepsTheInvariant :
    (∃ s t, Inv s ∧ s.phase = .ready ∧ step s = .next t) ∧ (∃ s t, Inv s ∧ s.phase = .faulted ∧ step s = .next t) ∧
    (∃ s t, Inv s ∧ s.seq = some (.init .busOpen) ∧ step s = .next t) ∧
    (∃ s t, Inv s ∧ s.seq = some (.tick 23 .sclkHigh) ∧ step s = .next t) :=
  ⟨⟨_, _, inv_ready [0x50000000], rfl, rfl⟩, ⟨_, _, inv_faulted 0x10000000, rfl, rfl⟩,
    ⟨_, _, inv_running (conf .C 48 .none) (.init .busOpen) [.ok 0 0] (by decide) (by decide), rfl, rfl⟩,
    ⟨_, _, inv_running (conf .A 2 .none) (.tick 23 .sclkHigh) [.err] (by decide) (by decide), rfl, rfl⟩⟩

theorem witness_BlankIsHeldOffDuringTransfer : ∃ t,
    blankHeldOff (running (conf .C 48 .none) .latchHigh [.ok 0 0]) ∧
    step (running (conf .C 48 .none) .latchHigh [.ok 0 0]) = .next t := ⟨_, fun _ _ _ _ => rfl, rfl⟩

theorem witness_DataIsHeldDuringShiftPulse : ∃ t,
    dataHeld (running (conf .B 1 .none) (.bit 0 .data) [.ok 0 0]) ∧
    step (running (conf .B 1 .none) (.bit 0 .data) [.ok 0 0]) = .next t ∧ t.seq = some (.bit 0 .sclkHigh) :=
  ⟨_, ⟨fun _ h => by rcases h with h | h <;> simp [running] at h, fun _ h => by rcases h with h | h <;> simp [running] at h⟩,
    rfl, rfl⟩

end Sys2Proof.Tests.Slice0
end

section
/-! PROOFS. The two blank levels and the operation that sets the blank line (R13). -/

namespace Sys2Proof.Machine

theorem offLevel_of_zero {cfg : Config} (h : cfg.blankOffLevel = 0) : offLevel cfg = .low := if_pos h

theorem offLevel_of_one {cfg : Config} (h : cfg.blankOffLevel = 1) : offLevel cfg = .high :=
  if_neg (by rw [h]; decide)

theorem onLevel_of_offLevel {cfg : Config} {l : Level} (h : offLevel cfg = l) : onLevel cfg = l.other :=
  congrArg Level.other h

theorem blankSet_pin {cfg : Config} (h : cfg.blankKind = .pin) (l : Level) : blankSet cfg l = .pinSet .blank l := by
  rw [blankSet, h]

theorem blankSet_generator {cfg : Config} (h : cfg.blankKind = .generator) (l : Level) :
    blankSet cfg l = .genDuty .blank (dutyOf l) := by
  rw [blankSet, h]

/-- Settles O31: the levels by the value of BLANK_OFF_LEVEL, the operation by the kind of the blank line. -/
theorem blankSetIsOneOperation : Obligations.BlankSetIsOneOperation := fun _ =>
  ⟨fun h => ⟨offLevel_of_zero h, onLevel_of_offLevel (offLevel_of_zero h)⟩,
    fun h => ⟨offLevel_of_one h, onLevel_of_offLevel (offLevel_of_one h)⟩,
    blankSet_pin,
    fun h => ⟨blankSet_generator h .high, blankSet_generator h .low⟩⟩

end Sys2Proof.Machine
end

section
/-! PROOFS. Every step keeps the invariant. The clauses of `Inv` are grouped by the fields they speak of (`inv_iff`); an
update that leaves a group's fields alone keeps the group by unfolding, so that each case of a step proves only the groups
it touches. -/

namespace Sys2Proof.Machine

/-! The groups. -/

/-- The buffer's clauses of `Inv`. -/
structure BufferFits (n : Nat) (buf : Memory) : Prop where
  canonical : buf.wf = true
  inRange : buf.below n = true

/-- The fault record's clauses of `Inv`. -/
structure FaultFits (n : Nat) (phase : Phase) (f : FaultRecord) : Prop where
  faultedCause : phase = .faulted ↔ f.cause ≠ .none
  infoZero : f.cause ≠ .indexOob → f.info = 0
  infoOob : f.cause = .indexOob → n ≤ f.info.toNat

/-- The clauses of `Inv` about what the strategy has not (R6). -/
structure OutputsFit (cfg : Config) (lvl : Levels) (genOn busOpen : Bool) : Prop where
  generatorExists : genOn = true → cfg.strategy ≠ .A
  busExists : busOpen = true → cfg.strategy = .C
  levelsOwned : ∀ sig, ownsOutput cfg sig = false → lvl.get sig = .unknown

/-- The generator and the bus that the strategy has are on, as INIT leaves them (R83, R84). -/
structure ResourcesOn (cfg : Config) (genOn busOpen : Bool) : Prop where
  generator : cfg.strategy ≠ .A → genOn = true
  bus : cfg.strategy = .C → busOpen = true

/-- What is on already when the sequencer stands at a position: everything in UPDATE, the generator when INIT
comes to its BusOpen. -/
structure PosFits (cfg : Config) (genOn busOpen : Bool) (p : Pos) : Prop where
  update : inInit p = false → ResourcesOn cfg genOn busOpen
  busOpen : p = .init .busOpen → genOn = true

/-- The clauses of `Inv` about phase and sequencer: the engine takes no command but INIT, or is ready, or runs one. -/
inductive RunFits (s : State) : Prop where
  | closed (hp : s.phase = .uninit ∨ s.phase = .faulted) (hs : s.seq = none)
  | ready (hp : s.phase = .ready) (hs : s.seq = none) (hv : configValid s.cfg = true)
      (hr : ResourcesOn s.cfg s.genOn s.busOpen)
  | running (p : Pos) (hp : s.phase = .busy) (hs : s.seq = some p) (hv : configValid s.cfg = true)
      (ha : posAllowed s.cfg s.buf p = true) (hr : PosFits s.cfg s.genOn s.busOpen p)

theorem Inv.resourcesOn {s : State} (h : Inv s) (hs : inService s) : ResourcesOn s.cfg s.genOn s.busOpen :=
  ⟨h.generatorRuns hs, h.busRuns hs⟩

theorem Inv.seq_none {s : State} (h : Inv s) (hp : s.phase ≠ .busy) : s.seq = none := by
  simpa using mt h.busyPos.mpr hp

theorem Inv.runFits {s : State} (h : Inv s) : RunFits s := by
  cases hp : s.phase with
  | uninit => exact .closed (.inl hp) (h.seq_none (by simp [hp]))
  | faulted => exact .closed (.inr hp) (h.seq_none (by simp [hp]))
  | ready => exact .ready hp (h.seq_none (by simp [hp])) (h.configOk (.inl hp)) (h.resourcesOn (.inl hp))
  | busy =>
    obtain ⟨p, hs⟩ := Option.isSome_iff_exists.mp (h.busyPos.mp hp)
    exact .running p hp hs (h.configOk (.inr hp)) (h.posOk p hs)
      ⟨fun hi => h.resourcesOn (.inr ⟨p, hs, hi⟩), fun hb => h.generatorFirst (hb ▸ hs)⟩

theorem RunFits.busyPos {s : State} (h : RunFits s) : s.phase = .busy ↔ s.seq.isSome = true := by
  rcases h with ⟨hp | hp, hs⟩ | ⟨hp, hs, _, _⟩ | ⟨p, hp, hs, _, _, _⟩ <;> simp [hp, hs]

theorem RunFits.configOk {s : State} (h : RunFits s) (hp : s.phase = .ready ∨ s.phase = .busy) :
    configValid s.cfg = true := by
  rcases h with ⟨hc | hc, _⟩ | ⟨_, _, hv, _⟩ | ⟨_, _, _, hv, _, _⟩
  · simp [hc] at hp
  · simp [hc] at hp
  · exact hv
  · exact hv

/-- A state with a position is a running one, at that position. -/
theorem RunFits.at_pos {s : State} {p : Pos} (h : RunFits s) (hs : s.seq = some p) :
    configValid s.cfg = true ∧ posAllowed s.cfg s.buf p = true ∧ PosFits s.cfg s.genOn s.busOpen p := by
  rcases h with ⟨_, hn⟩ | ⟨_, hn, _, _⟩ | ⟨q, _, hq, hv, ha, hr⟩
  · simp [hn] at hs
  · simp [hn] at hs
  · obtain rfl : q = p := Option.some.inj (hq.symm.trans hs)
    exact ⟨hv, ha, hr⟩

theorem RunFits.resourcesOn {s : State} (h : RunFits s) (hs : inService s) :
    ResourcesOn s.cfg s.genOn s.busOpen := by
  rcases hs with hp | ⟨p, hs, hi⟩
  · rcases h with ⟨hc | hc, _⟩ | ⟨_, _, _, hr⟩ | ⟨_, hc, _, _, _, _⟩
    · simp [hc] at hp
    · simp [hc] at hp
    · exact hr
    · simp [hc] at hp
  · exact (h.at_pos hs).2.2.update hi

/-- The invariant is its groups. -/
theorem inv_iff {s : State} : Inv s ↔ BufferFits s.cfg.n s.buf ∧ FaultFits s.cfg.n s.phase s.fault ∧
    OutputsFit s.cfg s.lvl s.genOn s.busOpen ∧ RunFits s := by
  constructor
  · intro h
    exact ⟨⟨h.canonical, h.inRange⟩, ⟨h.faultedCause, h.infoZero, h.infoOob⟩,
      ⟨h.generatorExists, h.busExists, h.levelsOwned⟩, h.runFits⟩
  · rintro ⟨hb, hf, ho, hr⟩
    exact { hb, hf, ho with
      busyPos := hr.busyPos
      posOk := fun p hs => (hr.at_pos hs).2.1
      configOk := hr.configOk
      generatorRuns := fun hs => (hr.resourcesOn hs).generator
      generatorFirst := fun hs => (hr.at_pos hs).2.2.busOpen rfl
      busRuns := fun hs => (hr.resourcesOn hs).bus }

/-! What keeps a group. -/

theorem bufferFits_empty (n : Nat) : BufferFits n [] := ⟨rfl, rfl⟩

/-- A buffer command that completes keeps the buffer canonical and within the channels (R90 to R93). -/
theorem BufferFits.after {i : Instr} {n : Nat} {m m' : Memory} (h : BufferFits n m) (hm : bufferAfter i n m m') :
    BufferFits n m' := by
  rcases hm with ⟨idx, v, -, hi, rfl⟩ | ⟨v, -, rfl⟩ | ⟨idx, -, -, rfl⟩
  · exact ⟨wf_write idx v h.canonical, below_write v hi h.inRange⟩
  · exact ⟨wf_fill n v, below_fill n v⟩
  · exact h

theorem faultFits_clear (n : Nat) {p : Phase} (hp : p ≠ .faulted) : FaultFits n p .clear :=
  ⟨by simp [FaultRecord.clear, hp], fun _ => rfl, fun h => by simp [FaultRecord.clear] at h⟩

theorem FaultFits.change_phase {n : Nat} {p q : Phase} {f : FaultRecord} (h : FaultFits n p f) (hp : p ≠ .faulted)
    (hq : q ≠ .faulted) : FaultFits n q f :=
  ⟨(iff_of_false hq hp).trans h.faultedCause, h.infoZero, h.infoOob⟩

/-- The first fault is recorded as it is raised (R121). -/
theorem FaultFits.record {n : Nat} {p : Phase} {f : FaultRecord} {c : FaultCause} {i : Entry} (h : FaultFits n p f)
    (hp : p ≠ .faulted) (hc : c ≠ .none) (hz : c ≠ .indexOob → i = 0) (ho : c = .indexOob → n ≤ i.toNat) :
    FaultFits n .faulted (recordFault f c i) := by
  have hf : f.cause = .none := by simpa using mt h.faultedCause.mpr hp
  rw [recordFault_none hf]
  exact ⟨by simp [hc], hz, ho⟩

theorem outputsFit_reset (cfg : Config) : OutputsFit cfg .unknown false false :=
  ⟨by simp, by simp, fun sig _ => by cases sig <;> rfl⟩

/-- An operation of the strategy starts, opens and drives only what the strategy has. -/
theorem OutputsFit.observe {cfg : Config} {lvl : Levels} {g b ok : Bool} {op : Op} (h : OutputsFit cfg lvl g b)
    (ha : opAllowed cfg op = true) :
    OutputsFit cfg (levelsAfter op ok lvl) (genOnAfter op ok g) (busOpenAfter op ok b) where
  generatorExists hg := by
    rcases (genOnAfter_eq_true op ok g).mp hg with hg | ⟨-, sig, f, d, rfl⟩
    · exact h.generatorExists hg
    · simp only [opAllowed, Bool.and_eq_true, decide_eq_true_eq] at ha
      exact ha.2
  busExists hb := by
    rcases (busOpenAfter_eq_true op ok b).mp hb with hb | ⟨-, sp, rfl⟩
    · exact h.busExists hb
    · simpa [opAllowed] using ha
  levelsOwned := levelsAfter_owned ha h.levelsOwned

/-- No operation stops the generator or closes the bus (R32). -/
theorem ResourcesOn.observe {cfg : Config} {g b : Bool} (h : ResourcesOn cfg g b) (op : Op) (ok : Bool) :
    ResourcesOn cfg (genOnAfter op ok g) (busOpenAfter op ok b) :=
  ⟨fun hs => (genOnAfter_eq_true op ok g).mpr (.inl (h.generator hs)),
    fun hs => (busOpenAfter_eq_true op ok b).mpr (.inl (h.bus hs))⟩

/-- The last operation of `init_outputs` leaves on all that the strategy has: A has neither generator nor bus, B starts
the generator last, C opens the bus last and after the generator (R82 to R84). -/
theorem resourcesOn_of_init_done {cfg : Config} {st : InitStep} {g b : Bool} (hn : nextInitStep cfg st = none)
    (hg : st = .busOpen → g = true) :
    ResourcesOn cfg (genOnAfter (initStepOp cfg st) true g) (busOpenAfter (initStepOp cfg st) true b) := by
  cases st with
  | data | sclk | latch | gsclk => simp [nextInitStep] at hn
  | blank =>
    have hA : cfg.strategy = .A := by simpa [nextInitStep] using hn
    exact ⟨fun h => absurd hA h, fun h => by simp [hA] at h⟩
  | genStart =>
    have hC : cfg.strategy ≠ .C := by simpa [nextInitStep] using hn
    exact ⟨fun _ => by simp [initStepOp, gsclkStart, genOnAfter], fun h => absurd h hC⟩
  | busOpen => exact ⟨fun _ => hg rfl, fun _ => by simp [initStepOp, busOpenAfter]⟩

/-- INIT comes to its BusOpen by a GenStart answered Ok (R84). -/
theorem genOn_of_next_busOpen {cfg : Config} {st : InitStep} {g : Bool} (hn : nextInitStep cfg st = some .busOpen) :
    genOnAfter (initStepOp cfg st) true g = true := by
  cases st with
  | genStart => simp [initStepOp, gsclkStart, genOnAfter]
  | latch => by_cases hA : cfg.strategy = .A <;> simp [nextInitStep, hA] at hn
  | data | sclk | gsclk | blank | busOpen => simp [nextInitStep] at hn

/-- After the last operation of a command, answered Ok, everything is on. -/
theorem PosFits.done {cfg : Config} {buf : Memory} {g b : Bool} {p : Pos} {rx : Byte} (h : PosFits cfg g b p)
    (hn : nextPos cfg buf rx p = none) :
    ResourcesOn cfg (genOnAfter (posOp cfg buf p) true g) (busOpenAfter (posOp cfg buf p) true b) := by
  cases hi : inInit p with
  | false => exact (h.update hi).observe _ _
  | true =>
    cases p with
    | init st => exact resourcesOn_of_init_done (by simpa [nextPos] using hn) (fun e => h.busOpen (e ▸ rfl))
    | _ => simp [inInit] at hi

/-- After an operation answered Ok, what the next position needs is on. -/
theorem PosFits.next {cfg : Config} {buf : Memory} {g b : Bool} {p q : Pos} {rx : Byte} (h : PosFits cfg g b p)
    (hn : nextPos cfg buf rx p = some q) :
    PosFits cfg (genOnAfter (posOp cfg buf p) true g) (busOpenAfter (posOp cfg buf p) true b) q := by
  cases hi : inInit p with
  | false =>
    have hq : inInit q = false := nextPos_notInit hi hn
    exact ⟨fun _ => (h.update hi).observe _ _, fun e => by simp [e, inInit] at hq⟩
  | true =>
    cases p with
    | init st =>
      obtain ⟨st', rfl⟩ := nextPos_init hn
      refine ⟨fun hq => by simp [inInit] at hq, fun e => genOn_of_next_busOpen ?_⟩
      obtain rfl : st' = .busOpen := by simpa using e
      simpa [nextPos] using hn
    | _ => simp [inInit] at hi

/-! Each way a step can go keeps the invariant. -/

theorem inv_withEnv {s : State} (h : Inv s) (e : Env) : Inv { s with env := e } := { h with }

theorem inv_takeWord {s : State} (h : Inv s) : Inv (takeWord s) := { h with }

theorem inv_applyReset (s : State) : Inv (applyReset s) :=
  inv_iff.mpr ⟨bufferFits_empty _, faultFits_clear _ (by simp), outputsFit_reset _, .closed (.inl rfl) rfl⟩

theorem inv_answerFaulted {s : State} (h : Inv s) (hp : s.phase = .faulted) : Inv (answerFaulted s) := by
  obtain ⟨hb, hf, ho, -⟩ := inv_iff.mp h
  exact inv_iff.mpr ⟨hb, hf, ho, .closed (.inr hp) rfl⟩

theorem inv_raiseFault {s : State} {c : FaultCause} {i : Entry} (h : Inv s) (hp : s.phase ≠ .faulted) (hc : c ≠ .none)
    (hz : c ≠ .indexOob → i = 0) (hi : c = .indexOob → s.cfg.n ≤ i.toNat) : Inv (raiseFault c i s) := by
  obtain ⟨hb, hf, ho, -⟩ := inv_iff.mp h
  exact inv_iff.mpr ⟨hb, hf.record hp hc hz hi, ho, .closed (.inr rfl) rfl⟩

/-- INDEX_OOB records an index out of range as it is: the decoder's index fits the info (R73, R122). -/
theorem inv_raiseFault_oob {s : State} {idx : Nat} (h : Inv s) (hp : s.phase ≠ .faulted) (hidx : idx < 4096)
    (hn : s.cfg.n ≤ idx) : Inv (raiseFault .indexOob (idxInfo idx) s) := by
  have hinfo : (idxInfo idx).toNat = idx := by
    rw [idxInfo, BitVec.toNat_ofNat]
    exact Nat.mod_eq_of_lt (by omega)
  exact inv_raiseFault h hp (by simp) (by simp) (fun _ => hinfo.symm ▸ hn)

theorem inv_raiseConfigError {s : State} (h : Inv s) (hp : s.phase ≠ .faulted) : Inv (raiseConfigError s) := by
  obtain ⟨hb, hf, ho, -⟩ := inv_iff.mp h
  exact inv_iff.mpr ⟨hb, hf.change_phase hp (by simp), ho, .closed (.inl rfl) rfl⟩

theorem inv_startInit {s : State} (h : Inv s) (hp : s.phase ≠ .faulted) (hv : configValid s.cfg = true) :
    Inv (startAt (.init (firstInitStep s.cfg)) { s with buf := [] }) := by
  obtain ⟨-, hf, ho, -⟩ := inv_iff.mp h
  have hne : firstInitStep s.cfg ≠ .busOpen := by rw [firstInitStep]; split <;> simp
  exact inv_iff.mpr ⟨bufferFits_empty _, hf.change_phase hp (by simp), ho,
    .running _ rfl rfl hv (firstInitStep_allowed _ _) ⟨fun hi => by simp [inInit] at hi, fun e => by simp [hne] at e⟩⟩

theorem inv_startUpdate {s : State} (h : Inv s) (hp : s.phase = .ready) : Inv (startAt .blankOff s) := by
  obtain ⟨hb, hf, ho, -⟩ := inv_iff.mp h
  exact inv_iff.mpr ⟨hb, hf.change_phase (by simp [hp]) (by simp), ho,
    .running _ rfl rfl (h.configOk (.inl hp)) rfl ⟨fun _ => h.resourcesOn (.inl hp), fun e => by simp at e⟩⟩

theorem inv_complete_buffer {s : State} {m : Memory} (h : Inv s) (hp : s.phase = .ready) (hm : BufferFits s.cfg.n m)
    (d : Entry) : Inv (complete d { s with buf := m }) := by
  obtain ⟨-, hf, ho, -⟩ := inv_iff.mp h
  exact inv_iff.mpr ⟨hm, hf.change_phase (by simp [hp]) (by simp), ho,
    .ready rfl rfl (h.configOk (.inl hp)) (h.resourcesOn (.inl hp))⟩

/-- A decoded command that dispatch lets run keeps the invariant. -/
theorem inv_runOf {s : State} {w : Word} {i : Instr} (h : Inv s) (hd : decode w = .ok i)
    (hp : s.phase = .ready ∨ (s.phase = .uninit ∧ i = .init)) : Inv (runOf i s) := by
  have hnf : s.phase ≠ .faulted := by rcases hp with hp | ⟨hp, -⟩ <;> simp [hp]
  have hready : i ≠ .init → s.phase = .ready := fun hi => hp.resolve_right (fun hu => hi hu.2)
  rcases runOf_cases i s with ⟨-, hv, e⟩ | ⟨-, -, e⟩ | ⟨rfl, e⟩ | ⟨idx, hi, hn, e⟩ | ⟨d, m, hm, e⟩ <;> rw [e]
  · exact inv_startInit h hnf hv
  · exact inv_raiseConfigError h hnf
  · exact inv_startUpdate h (hready (by simp))
  · exact inv_raiseFault_oob h hnf (decode_idx_lt hd hi) hn
  · have hi : i ≠ .init := by rintro rfl; simp [bufferAfter] at hm
    exact inv_complete_buffer h (hready hi) (BufferFits.after ⟨h.canonical, h.inRange⟩ hm) d

/-- The acceptance of a word keeps the invariant. -/
theorem inv_acceptWord {s t : State} {w : Word} (h : Inv s) (hb : s.phase ≠ .busy) (ha : acceptWord w s = .next t) :
    Inv t := by
  have h' := inv_takeWord h
  rcases acceptWord_cases hb ha with ⟨hp, rfl⟩ | ⟨-, hp, rfl⟩ | ⟨-, hp, rfl⟩ | ⟨i, hd, hp, rfl⟩
  · exact inv_answerFaulted h' hp
  · exact inv_raiseFault h' hp (by simp) (fun _ => rfl) (by simp)
  · exact inv_raiseFault h' (by simp [hp]) (by simp) (fun _ => rfl) (by simp)
  · exact inv_runOf h' hd hp

/-- A transaction of the running command keeps the invariant. -/
theorem inv_transact {s : State} {p : Pos} (h : Inv s) (hp : s.phase = .busy) (hs : s.seq = some p) (a : Answer) :
    Inv (transact p a s) := by
  obtain ⟨hb, hf, ho, hr⟩ := inv_iff.mp h
  obtain ⟨hv, hpa, hpf⟩ := hr.at_pos hs
  have hfault : ∀ q, q ≠ .faulted → FaultFits s.cfg.n q s.fault := fun q => hf.change_phase (by simp [hp])
  have hout := ho.observe (ok := a.isOk) (opAllowed_posOp hpa)
  rcases transact_cases p a s with ⟨_, _, q, rfl, hn, e⟩ | ⟨_, _, rfl, hn, e⟩ | ⟨rfl, e⟩ <;> rw [e]
  · exact inv_iff.mpr ⟨hb, hf, hout, .running q hp rfl hv (nextPos_allowed hv hpa hn) (hpf.next hn)⟩
  · exact inv_iff.mpr ⟨hb, hfault _ (by simp), hout, .ready rfl rfl hv (hpf.done hn)⟩
  · cases hi : inInit p with
    | true => exact inv_iff.mpr ⟨hb, hfault _ (by simp), hout, .closed (.inl rfl) rfl⟩
    | false => exact inv_iff.mpr ⟨hb, hfault _ (by simp), hout, .ready rfl rfl hv ((hpf.update hi).observe _ _)⟩

/-- Settles O50, by the cases of a step: reset, a transaction, waiting for an answer, idling, accepting a word. -/
theorem everyStepKeepsTheInvariant : Obligations.EveryStepKeepsTheInvariant := by
  intro s t h hst
  rcases step_cases hst with ⟨-, rfl⟩ | ⟨-, hp, p, hs, ⟨-, rfl⟩ | ⟨a, rest, -, rfl⟩⟩ | ⟨-, -, -, rfl⟩ |
    ⟨-, hp, w, ws, -, ha⟩
  · exact inv_applyReset s
  · exact h
  · exact inv_transact (inv_withEnv h rest) hp hs a
  · exact h
  · exact inv_acceptWord h hp ha

end Sys2Proof.Machine
end

section
/-! PROOFS. The state after reset (R35), and that a step from a state with the invariant always answers a next state. -/

namespace Sys2Proof.Machine

/-! The state after reset. -/

@[simp] theorem levels_get_unknown (sig : Signal) : Levels.unknown.get sig = .unknown := by
  cases sig <;> rfl

/-- Without a position no UPDATE holds the blank line. -/
theorem blankHeldOff_of_seq_none {s : State} (h : s.seq = none) : blankHeldOff s :=
  fun p hp => by simp [h] at hp

/-- Without a position no stream bit is being shifted. -/
theorem dataHeld_of_seq_none {s : State} (h : s.seq = none) : dataHeld s :=
  ⟨fun t ht => by simp [h] at ht, fun k hk => by simp [h] at hk⟩

/-- Reset of the reset state changes nothing. -/
theorem applyReset_resetFor (cfg : Config) : applyReset (State.resetFor cfg) = State.resetFor cfg := rfl

/-- Settles O1: the state after reset is written out in `State.resetFor`; a level is that of `Levels.unknown`. -/
theorem resetLeavesTableValues : Obligations.ResetLeavesTableValues := fun _ =>
  ⟨fun _ => rfl, rfl, rfl, rfl, rfl, levels_get_unknown, rfl, rfl⟩

/-- Settles O49: the state after reset is what reset makes of a state, and it has no position. -/
theorem invariantHoldsAfterReset : Obligations.InvariantHoldsAfterReset := fun cfg =>
  ⟨applyReset_resetFor cfg ▸ inv_applyReset (State.resetFor cfg), blankHeldOff_of_seq_none rfl, dataHeld_of_seq_none rfl⟩

/-! Every step of a state with the invariant answers. -/

theorem step_reset {s : State} (hr : s.resetLine = true) : step s = .next (applyReset s) := by
  simp [step, hr]

theorem step_busy {s : State} {p : Pos} (hr : s.resetLine = false) (hb : s.phase = .busy) (hs : s.seq = some p) :
    step s = .next (busyStep p s) := by
  simp [step, hr, hb, hs]

/-- A step outside BUSY with no word offered changes nothing (R136). -/
theorem step_idle {s : State} (hr : s.resetLine = false) (hb : s.phase ≠ .busy) (ho : s.offers = []) :
    step s = .next s := by
  cases hp : s.phase <;> simp_all [step, portStep, fetchWord]

theorem dispatchIllegal_total (s : State) : ∃ t, dispatchIllegal s = .next t := by
  rw [dispatchIllegal]
  cases s.phase <;> exact ⟨_, rfl⟩

theorem acceptWord_total (w : Word) (s : State) : ∃ t, acceptWord w s = .next t := by
  rw [acceptWord]
  cases decode w with
  | ok i => exact exec_total i s
  | error e => exact dispatchIllegal_total s

/-- Settles O51, by what a step sees first: reset, BUSY (which has a position by the invariant), an offered word, none. -/
theorem stepNeverStops : Obligations.StepNeverStops := by
  intro s h
  cases hr : s.resetLine with
  | true => exact ⟨_, step_reset hr⟩
  | false =>
    by_cases hb : s.phase = .busy
    · obtain ⟨p, hs⟩ := Option.isSome_iff_exists.mp (h.busyPos.mp hb)
      exact ⟨_, step_busy hr hb hs⟩
    · cases ho : s.offers with
      | nil => exact ⟨_, step_idle hr hb ho⟩
      | cons w ws => exact step_offered hr hb ho ▸ acceptWord_total w s

end Sys2Proof.Machine
end

section
/-! PROOFS. What a step leaves alone: the configuration, a recorded fault, the generator and the bus, the buffer; and what
an answer does to the levels. Each fact is proved of a command that runs, then of an acceptance, then of a step. -/

namespace Sys2Proof.Machine

/-! The levels (R28). -/

theorem levelsAfter_pinSet_same (sig : Signal) (l : Level) (ok : Bool) (v : Levels) (h : sig ≠ .bus) :
    (levelsAfter (.pinSet sig l) ok v).get sig = shadowAfter ok l :=
  levels_get_set_same v sig _ h

theorem levelsAfter_genDuty_same (sig : Signal) (l : Level) (ok : Bool) (v : Levels) (h : sig ≠ .bus) :
    (levelsAfter (.genDuty sig (dutyOf l)) ok v).get sig = shadowAfter ok l := by
  rw [levelsAfter, levels_get_set_same v sig _ h, Level.duty_level]

/-- Settles O38: a transaction's effect on the levels is its operation's (`transact_lvl`). -/
theorem levelsFollowTheAnswers : Obligations.LevelsFollowTheAnswers := by
  intro p a s sig hsig
  rw [transact_lvl]
  refine ⟨fun l hop => ?_, fun l hop => ?_, levelsAfter_other _ _ _ sig⟩
  · rw [hop]; exact levelsAfter_pinSet_same sig l _ _ hsig
  · rw [hop]; exact levelsAfter_genDuty_same sig l _ _ hsig

/-! A step without reset, by phase. -/

/-- In BUSY a step waits for the answer or performs one transaction. -/
theorem step_busy_cases {s t : State} (hr : s.resetLine = false) (hb : s.phase = .busy) (h : step s = .next t) :
    t = s ∨ ∃ p a rest, s.seq = some p ∧ t = transact p a { s with env := rest } := by
  rcases step_cases h with ⟨hr', -⟩ | ⟨-, -, p, hs, ⟨-, rfl⟩ | ⟨a, rest, -, rfl⟩⟩ | ⟨-, hb', -⟩ | ⟨-, hb', -⟩
  · simp [hr] at hr'
  · exact .inl rfl
  · exact .inr ⟨p, a, rest, hs, rfl⟩
  · exact absurd hb hb'
  · exact absurd hb hb'

/-- Outside BUSY a step idles or accepts the offered word. -/
theorem step_port_cases {s t : State} (hr : s.resetLine = false) (hb : s.phase ≠ .busy) (h : step s = .next t) :
    (s.offers = [] ∧ t = s) ∨ ∃ w ws, s.offers = w :: ws ∧ acceptWord w s = .next t := by
  rcases step_cases h with ⟨hr', -⟩ | ⟨-, hb', -⟩ | ⟨-, -, ho, ht⟩ | ⟨-, -, hw⟩
  · simp [hr] at hr'
  · exact absurd hb' hb
  · exact .inl ⟨ho, ht⟩
  · exact .inr hw

/-- A step without reset holds the state, performs one transaction, or accepts a word. -/
theorem step_noReset_cases {s t : State} (hr : s.resetLine = false) (h : step s = .next t) :
    t = s ∨ (∃ p a rest, t = transact p a { s with env := rest }) ∨
      (s.phase ≠ .busy ∧ ∃ w ws, s.offers = w :: ws ∧ acceptWord w s = .next t) := by
  by_cases hb : s.phase = .busy
  · rcases step_busy_cases hr hb h with ht | ⟨p, a, rest, -, ht⟩
    · exact .inl ht
    · exact .inr (.inl ⟨p, a, rest, ht⟩)
  · rcases step_port_cases hr hb h with ⟨-, ht⟩ | hw
    · exact .inl ht
    · exact .inr (.inr ⟨hb, hw⟩)

/-! The configuration (R5, R31). -/

/-- Settles O44, by the cases of a step. -/
theorem configurationIsNeverWritten : Obligations.ConfigurationIsNeverWritten := by
  intro s t h
  rcases step_cases h with ⟨-, rfl⟩ | ⟨-, -, p, -, ⟨-, rfl⟩ | ⟨a, rest, -, rfl⟩⟩ | ⟨-, -, -, rfl⟩ |
    ⟨-, hb, w, ws, -, ha⟩
  · rfl
  · rfl
  · exact (transact_frame p a _).1
  · rfl
  · obtain ⟨-, -, -, hcfg, -, -⟩ := acceptWord_frame hb ha
    exact hcfg

/-! The fault record (R25, R121). -/

/-- From `s` to `t` the fault record is left alone, or a fault has been taken. -/
def FaultKeptOrTaken (s t : State) : Prop :=
  t.fault = s.fault ∨ (t.phase = .faulted ∧ ∃ c i, t.fault = recordFault s.fault c i)

theorem faultKeptOrTaken_raiseFault (c : FaultCause) (i : Entry) (s : State) : FaultKeptOrTaken s (raiseFault c i s) :=
  .inr ⟨rfl, c, i, rfl⟩

theorem runOf_fault (i : Instr) (s : State) : FaultKeptOrTaken s (runOf i s) := by
  rcases runOf_cases i s with ⟨-, -, e⟩ | ⟨-, -, e⟩ | ⟨-, e⟩ | ⟨idx, -, -, e⟩ | ⟨d, m, -, e⟩ <;> rw [e]
  · exact .inl rfl
  · exact .inl rfl
  · exact .inl rfl
  · exact faultKeptOrTaken_raiseFault _ _ s
  · exact .inl rfl

theorem acceptWord_fault {s t : State} {w : Word} (hb : s.phase ≠ .busy) (ha : acceptWord w s = .next t) :
    FaultKeptOrTaken s t := by
  rcases acceptWord_cases hb ha with ⟨-, rfl⟩ | ⟨-, -, rfl⟩ | ⟨-, -, rfl⟩ | ⟨i, -, -, rfl⟩
  · exact .inl rfl
  · exact faultKeptOrTaken_raiseFault _ _ (takeWord s)
  · exact faultKeptOrTaken_raiseFault _ _ (takeWord s)
  · exact runOf_fault i (takeWord s)

theorem step_fault {s t : State} (hr : s.resetLine = false) (h : step s = .next t) : FaultKeptOrTaken s t := by
  rcases step_noReset_cases hr h with rfl | ⟨p, a, rest, rfl⟩ | ⟨hb, w, ws, -, ha⟩
  · exact .inl rfl
  · obtain ⟨-, -, hfault, -⟩ := transact_frame p a { s with env := rest }
    exact .inl hfault
  · exact acceptWord_fault hb ha

/-- Settles O41: a fault that is taken leaves a recorded one as it is (`recordFault_some`). -/
theorem firstFaultIsKept : Obligations.FirstFaultIsKept := by
  intro s t hr h
  rcases step_fault hr h with hf | ⟨hp, c, i, hf⟩
  · exact ⟨fun _ => hf, fun hne => absurd hf hne⟩
  · exact ⟨fun hc => hf.trans (recordFault_some hc c i), fun _ => hp⟩

/-! The generator and the bus (R32). -/

theorem transact_trace (p : Pos) (a : Answer) (s : State) :
    (transact p a s).trace = s.trace ++ [⟨posOp s.cfg s.buf p, replyTo (posOp s.cfg s.buf p) a⟩] := by
  simp [State.trace, transact_traceRev]

theorem replyTo_of_isOk {op : Op} {a : Answer} (ha : a.isOk = true) (hop : ∀ bytes, op ≠ .busTransfer bytes) :
    replyTo op a = .ok := by
  obtain ⟨rx0, rx1, rfl⟩ := isOk_cases ha
  cases op with
  | busTransfer bytes => exact absurd rfl (hop bytes)
  | _ => rfl

/-- A step without reset leaves the generator and the bus alone, or does to them what one answered operation does. -/
theorem step_resources {s t : State} (hr : s.resetLine = false) (h : step s = .next t) :
    (t.genOn = s.genOn ∧ t.busOpen = s.busOpen) ∨
    ∃ op a, t.genOn = genOnAfter op a.isOk s.genOn ∧ t.busOpen = busOpenAfter op a.isOk s.busOpen ∧
      t.trace = s.trace ++ [⟨op, replyTo op a⟩] := by
  rcases step_noReset_cases hr h with rfl | ⟨p, a, rest, rfl⟩ | ⟨hb, w, ws, -, ha⟩
  · exact .inl ⟨rfl, rfl⟩
  · exact .inr ⟨_, a, transact_genOn p a _, transact_busOpen p a _, transact_trace p a _⟩
  · obtain ⟨hgen, hbus, -⟩ := acceptWord_frame hb ha
    exact .inl ⟨hgen, hbus⟩

/-- Settles O42: only a GenStart or a BusOpen answered Ok changes `gen_on` or `bus_open`, and it makes it true. -/
theorem generatorAndBusStayOn : Obligations.GeneratorAndBusStayOn := by
  intro s t hr h
  rcases step_resources hr h with ⟨hg, hb⟩ | ⟨op, a, hg, hb, htr⟩
  · rw [hg, hb]
    exact ⟨id, id, .inl, .inl⟩
  · rw [hg, hb, htr]
    refine ⟨fun on => (genOnAfter_eq_true ..).mpr (.inl on), fun on => (busOpenAfter_eq_true ..).mpr (.inl on),
      fun on => ?_, fun on => ?_⟩
    · refine ((genOnAfter_eq_true ..).mp on).imp_right ?_
      rintro ⟨ok, sig, f, d, rfl⟩
      exact ⟨sig, f, d, by rw [replyTo_of_isOk ok (by simp)]⟩
    · refine ((busOpenAfter_eq_true ..).mp on).imp_right ?_
      rintro ⟨ok, sp, rfl⟩
      exact ⟨sp, by rw [replyTo_of_isOk ok (by simp)]⟩

/-! The buffer (R22, R42, R54). -/

theorem runOf_buf (i : Instr) (s : State) :
    (runOf i s).buf = s.buf ∨ (i ≠ .update ∧ ∀ idx, i ≠ .readChannel idx) := by
  cases i with
  | update => exact .inl rfl
  | readChannel idx =>
    rcases checkIdx_cases idx (fun s => complete (s.buf.read idx) s) s with ⟨-, e⟩ | ⟨-, e⟩ <;>
      exact .inl (by simp [runOf, e])
  | init | setChannel | setAll | clear => exact .inr ⟨by simp, by simp⟩

theorem acceptWord_buf {s t : State} {w : Word} (hb : s.phase ≠ .busy) (ha : acceptWord w s = .next t) :
    t.buf = s.buf ∨ ∃ i, decode w = .ok i ∧ i ≠ .update ∧ ∀ idx, i ≠ .readChannel idx := by
  rcases acceptWord_cases hb ha with ⟨-, rfl⟩ | ⟨-, -, rfl⟩ | ⟨-, -, rfl⟩ | ⟨i, hd, -, rfl⟩
  · exact .inl rfl
  · exact .inl rfl
  · exact .inl rfl
  · exact (runOf_buf i (takeWord s)).imp_right fun hi => ⟨i, hd, hi⟩

/-- Settles O45: a transaction leaves the buffer alone, and of the accepted commands UPDATE and READ_CHANNEL do. -/
theorem bufferChangesOnlyByItsCommands : Obligations.BufferChangesOnlyByItsCommands := by
  intro s t hr h hne
  rcases step_noReset_cases hr h with rfl | ⟨p, a, rest, rfl⟩ | ⟨hb, w, ws, ho, ha⟩
  · exact absurd rfl hne
  · obtain ⟨-, hbuf, -⟩ := transact_frame p a { s with env := rest }
    exact absurd hbuf hne
  · obtain ⟨i, hi⟩ := (acceptWord_buf hb ha).resolve_left hne
    exact ⟨hb, w, ws, i, ho, hi⟩

end Sys2Proof.Machine
end

section
/-! PROOFS. The phase transitions of a step without reset (R24): what the acceptance of a word and a transaction do to the
phase, then each phase's clause. -/

namespace Sys2Proof.Machine

/-- A claim about the offered word, where `w` is the one that is offered. -/
theorem exists_offered_iff {offers ws : List Word} {w : Word} {P : Word → Prop} (ho : offers = w :: ws) :
    (∃ w' ws', offers = w' :: ws' ∧ P w') ↔ P w := by
  simp [ho]

theorem acceptWord_phase_faulted {s t : State} {w : Word} (hp : s.phase = .faulted) (ha : acceptWord w s = .next t) :
    t.phase = .faulted := by
  rcases acceptWord_cases (by simp [hp]) ha with ⟨-, rfl⟩ | ⟨-, hf, -⟩ | ⟨-, hu, -⟩ | ⟨i, -, hr, -⟩
  · exact hp
  · exact absurd hp hf
  · simp [hp] at hu
  · simp [hp] at hr

theorem acceptWord_phase_uninit {s t : State} {w : Word} (hp : s.phase = .uninit) (ha : acceptWord w s = .next t) :
    t.phase ≠ .ready ∧
    (t.phase = .busy ↔ decode w = .ok .init ∧ configValid s.cfg = true) ∧
    (t.phase = .faulted ↔ (∃ e, decode w = .error e) ∨ ∃ i, decode w = .ok i ∧ i ≠ .init) := by
  rcases acceptWord_cases (by simp [hp]) ha with ⟨hf, -⟩ | ⟨⟨e, hd⟩, -, rfl⟩ | ⟨⟨i, hd, hi⟩, -, rfl⟩ | ⟨i, hd, hr, rfl⟩
  · simp [hp] at hf
  · simp [hd]
  · simp [hd, hi]
  · obtain rfl : i = .init := by simpa [hp] using hr
    cases hv : configValid s.cfg
    · simp [runOf, runInit_invalid (s := takeWord s) hv, hd]
    · simp [runOf, runInit_valid (s := takeWord s) hv, hd]

theorem acceptWord_phase_ready {s t : State} {w : Word} (hp : s.phase = .ready) (ha : acceptWord w s = .next t) :
    (t.phase = .uninit ↔ decode w = .ok .init ∧ configValid s.cfg = false) ∧
    (t.phase = .busy ↔ (decode w = .ok .init ∧ configValid s.cfg = true) ∨ decode w = .ok .update) ∧
    (t.phase = .faulted ↔ (∃ e, decode w = .error e) ∨
      ∃ idx, s.cfg.n ≤ idx ∧ ((∃ v, decode w = .ok (.setChannel idx v)) ∨ decode w = .ok (.readChannel idx))) := by
  rcases acceptWord_cases (by simp [hp]) ha with ⟨hf, -⟩ | ⟨⟨e, hd⟩, -, rfl⟩ | ⟨-, hu, -⟩ | ⟨i, hd, -, rfl⟩
  · simp [hp] at hf
  · simp [hd]
  · simp [hp] at hu
  · simpa [hd] using runOf_phase i (takeWord s)

/-- A transaction goes on in BUSY, or ends the command with one response: in UNINIT only if it is INIT, else in READY. -/
theorem transact_phase (p : Pos) (a : Answer) (s : State) (hb : s.phase = .busy) :
    (transact p a s).phase = .busy ∨
    (((transact p a s).phase = .ready ∨ ((transact p a s).phase = .uninit ∧ inInit p = true)) ∧
      ∃ w, (transact p a s).responsesRev = w :: s.responsesRev ∧ (transact p a s).resp = some w) := by
  rcases transact_cases p a s with ⟨_, _, q, -, -, e⟩ | ⟨_, _, -, -, e⟩ | ⟨-, e⟩ <;> rw [e]
  · exact .inl hb
  · exact .inr ⟨.inl rfl, _, rfl, rfl⟩
  · refine .inr ⟨?_, _, rfl, rfl⟩
    cases hi : inInit p <;> simp

theorem eq_init_of_inInit {p : Pos} (h : inInit p = true) : ∃ st, p = .init st := by
  cases p with
  | init st => exact ⟨st, rfl⟩
  | _ => simp [inInit] at h

theorem step_phase_faulted {s t : State} (hr : s.resetLine = false) (hp : s.phase = .faulted) (h : step s = .next t) :
    t.phase = .faulted := by
  rcases step_port_cases hr (by simp [hp]) h with ⟨-, rfl⟩ | ⟨w, ws, -, ha⟩
  · exact hp
  · exact acceptWord_phase_faulted hp ha

/-- BUSY ends only with a response, and in UNINIT only from INIT. -/
theorem step_phase_busy {s t : State} (hr : s.resetLine = false) (hp : s.phase = .busy) (h : step s = .next t) :
    t.phase = .busy ∨
    ((t.phase = .ready ∨ (t.phase = .uninit ∧ ∃ st, s.seq = some (.init st))) ∧
      ∃ w, t.responsesRev = w :: s.responsesRev ∧ t.resp = some w) := by
  rcases step_busy_cases hr hp h with rfl | ⟨p, a, rest, hs, rfl⟩
  · exact .inl hp
  · refine (transact_phase p a { s with env := rest } hp).imp_right (And.imp_left (Or.imp_right (And.imp_right ?_)))
    intro hi
    obtain ⟨st, rfl⟩ := eq_init_of_inInit hi
    exact ⟨st, hs⟩

/-- Settles O40, phase by phase; outside BUSY an idle step and an accepted word are told apart by the offered words. -/
theorem phaseTransitions : Obligations.PhaseTransitions := by
  intro s t hr h
  refine ⟨fun hp => step_phase_faulted hr hp h, fun hp => ?_, fun hp => ?_, fun hp => ?_⟩
  · rcases step_port_cases hr (by simp [hp]) h with ⟨ho, rfl⟩ | ⟨w, ws, ho, ha⟩
    · simp [hp, ho]
    · rw [exists_offered_iff ho, exists_offered_iff ho]
      exact acceptWord_phase_uninit hp ha
  · rcases step_port_cases hr (by simp [hp]) h with ⟨ho, rfl⟩ | ⟨w, ws, ho, ha⟩
    · simp [hp, ho]
    · rw [exists_offered_iff ho, exists_offered_iff ho, exists_offered_iff ho]
      exact acceptWord_phase_ready hp ha
  · rcases step_phase_busy hr hp h with hq | ⟨hq | ⟨hq, hst⟩, hw⟩
    · simp [hq]
    · exact ⟨by simp [hq], fun hu => by simp [hq] at hu, fun _ => hw⟩
    · exact ⟨by simp [hq], fun _ => ⟨hst, hw⟩, fun hd => by simp [hq] at hd⟩

end Sys2Proof.Machine
end

section
/-! PROOFS. The stream and the frame: where a channel's bits stand, that the frame is the stream and its padding, that only
bits 11 to 0 of the entries are sent, and that unpacking gives them back (R45 to R51). -/

namespace Sys2Proof.Machine

/-! The stream (R45). -/

/-- The place of a channel's bit is within the stream, and its quotient and remainder give the channel and the bit
back. -/
theorem bitPlace_spec {n c b : Nat} (hc : c < n) (hb : b < 12) :
    12 * (n - 1 - c) + (11 - b) < 12 * n ∧
      n - 1 - (12 * (n - 1 - c) + (11 - b)) / 12 = c ∧ 11 - (12 * (n - 1 - c) + (11 - b)) % 12 = b := by
  omega

theorem streamBit_bitPlace {n c b : Nat} (buf : Memory) (hc : c < n) (hb : b < 12) :
    streamBit n buf (12 * (n - 1 - c) + (11 - b)) = (buf.read c).getLsbD b := by
  obtain ⟨-, hchannel, hbit⟩ := bitPlace_spec hc hb
  rw [streamBit, hchannel, hbit]

@[simp] theorem stream_length (n : Nat) (buf : Memory) : (stream n buf).length = 12 * n := by simp [stream, nbits]

theorem stream_getElem? {n k : Nat} (buf : Memory) (hk : k < 12 * n) :
    (stream n buf)[k]? = some (streamBit n buf k) := by
  rw [stream, List.getElem?_map, List.getElem?_range (show k < nbits n from hk), Option.map_some]

/-- Settles O33: the stream at a place is its stream bit there, which is the channel's bit of that place. -/
theorem streamOrder : Obligations.StreamOrder := by
  intro n buf c b hc hb
  refine ⟨stream_length n buf, ?_⟩
  rw [stream_getElem? buf (bitPlace_spec hc hb).1, streamBit_bitPlace buf hc hb]

/-! The frame (R46, R47, R49). -/

/-- The frame has room for the whole stream. -/
theorem le_frame_bits (n : Nat) : 12 * n ≤ 8 * nbytes n := by
  rw [nbytes]; omega

theorem nbytes_of_even {n : Nat} (h : n % 2 = 0) : 2 * nbytes n = 3 * n := by
  rw [nbytes]; omega

theorem nbytes_of_odd {n : Nat} (h : n % 2 = 1) : 2 * nbytes n = 3 * n + 1 := by
  rw [nbytes]; omega

theorem wireBit_pack_stream {n k : Nat} (buf : Memory) (hk : k < 12 * n) :
    wireBit (pack n buf) k = streamBit n buf k := by
  rw [wireBit_pack n buf (hk.trans_le (le_frame_bits n)), frameBit_of_lt n buf hk]

theorem wireBit_pack_padding {n k : Nat} (buf : Memory) (hk : 12 * n ≤ k) (hlen : k < 8 * nbytes n) :
    wireBit (pack n buf) k = false := by
  rw [wireBit_pack n buf hlen, frameBit_of_ge n buf hk]

/-- The low 4 bits of an odd frame's last byte are the padding: the wire bits from 12N on (R49). -/
theorem pack_lastByte_low {n b : Nat} (buf : Memory) (hn : n % 2 = 1) (hb : b < 4) :
    ((pack n buf).getD (nbytes n - 1) 0).getLsbD b = false := by
  have hlen := nbytes_of_odd hn
  have hplace : 8 * (nbytes n - 1) + (7 - b) < 8 * nbytes n := by omega
  have hbyte : (8 * (nbytes n - 1) + (7 - b)) / 8 = nbytes n - 1 := by omega
  have hbit : 7 - (8 * (nbytes n - 1) + (7 - b)) % 8 = b := by omega
  have hpad := wireBit_pack_padding buf (by omega) hplace
  rwa [wireBit, hbyte, hbit] at hpad

/-- Settles O34: the length is arithmetic on NBYTES; a wire bit is a stream bit below 12N and padding from there on. -/
theorem frameCarriesTheStream : Obligations.FrameCarriesTheStream := by
  intro n buf
  rw [pack_length]
  refine ⟨rfl, fun hn => ?_, fun hn => ?_, fun k hk => wireBit_pack_stream buf hk,
    fun hn b hb => pack_lastByte_low buf hn hb, fun hn => ?_⟩
  · have := nbytes_of_even hn
    omega
  · have := nbytes_of_odd hn
    omega
  · have := nbytes_of_even hn
    omega

/-! Unpacking (R51). -/

/-- Settles O36: the wire bits of a channel are the low 12 bits of its entry, and a number's low bits sum to its
remainder. -/
theorem unpackingTheFrameGivesTheEntries : Obligations.UnpackingTheFrameGivesTheEntries := by
  intro n buf c hc
  have hbits : ∀ b ∈ List.range 12,
      (wireBit (pack n buf) (12 * (n - 1 - c) + (11 - b))).toNat * 2 ^ b =
        ((buf.read c).toNat.testBit b).toNat * 2 ^ b := by
    intro b hb
    have hb : b < 12 := List.mem_range.mp hb
    rw [wireBit_pack_stream buf (bitPlace_spec hc hb).1, streamBit_bitPlace buf hc hb, BitVec.testBit_toNat]
  rw [unpackEntry, List.map_congr_left hbits]
  exact sum_low_bits (buf.read c).toNat 12

/-! Bits 15 to 12 are not sent (R48): the frame and the operations of UPDATE depend on the buffer through the stream. -/

theorem streamBit_congr {n k : Nat} {b1 b2 : Memory}
    (h : ∀ i, i < n → (b1.read i).extractLsb' 0 12 = (b2.read i).extractLsb' 0 12) (hk : k < 12 * n) :
    streamBit n b1 k = streamBit n b2 k := by
  have hbit := congrArg (BitVec.getLsbD · (11 - k % 12)) (h (n - 1 - k / 12) (by omega))
  have hlow : 11 - k % 12 < 12 := by omega
  simpa [streamBit, BitVec.getLsbD_extractLsb', hlow] using hbit

section
variable {n : Nat} {b1 b2 : Memory} (h : ∀ k, k < 12 * n → streamBit n b1 k = streamBit n b2 k)
include h

theorem frameBit_congr : frameBit n b1 = frameBit n b2 := by
  funext k
  rcases Nat.lt_or_ge k (12 * n) with hk | hk
  · rw [frameBit_of_lt n b1 hk, frameBit_of_lt n b2 hk, h k hk]
  · rw [frameBit_of_ge n b1 hk, frameBit_of_ge n b2 hk]

theorem pack_congr : pack n b1 = pack n b2 := by
  have hbyte : frameByte n b1 = frameByte n b2 := by
    funext j
    rw [frameByte, frameByte, frameBit_congr h]
  rw [pack, pack, hbyte]

theorem tickOps_congr (t : Nat) : tickOps n b1 t = tickOps n b2 t := by
  rcases Nat.lt_trichotomy t (12 * n) with ht | rfl | ht
  · rw [tickOps_lt b1 ht, tickOps_lt b2 ht, h t ht]
  · rw [tickOps_eq, tickOps_eq]
  · rw [tickOps_gt b1 ht, tickOps_gt b2 ht]

theorem transferA_congr : transferA n b1 = transferA n b2 := by
  rw [transferA, transferA, funext (tickOps_congr h)]

theorem transferB_congr : transferB n b1 = transferB n b2 := by
  have hbits : ∀ k ∈ List.range (nbits n), bitOps n b1 k = bitOps n b2 k := fun k hk => by
    rw [bitOps, bitOps, h k (List.mem_range.mp hk)]
  rw [transferB, transferB, List.flatMap_congr hbits]

end

theorem updateOps_congr {cfg : Config} {b1 b2 : Memory}
    (h : ∀ k, k < 12 * cfg.n → streamBit cfg.n b1 k = streamBit cfg.n b2 k) (polls : Nat) :
    updateOps cfg b1 polls = updateOps cfg b2 polls := by
  have htransfer : transfer cfg b1 polls = transfer cfg b2 polls := by
    unfold transfer
    cases cfg.strategy with
    | A => exact transferA_congr h
    | B => exact transferB_congr h
    | C => simp only [transferC, pack_congr h]
  rw [updateOps, updateOps, htransfer]

/-- Settles O35: buffers that agree in bits 11 to 0 have the same stream bits, hence the same frame and operations. -/
theorem highBitsAreNeverSent : Obligations.HighBitsAreNeverSent := by
  intro cfg b1 b2 polls h
  have hstream : ∀ k, k < 12 * cfg.n → streamBit cfg.n b1 k = streamBit cfg.n b2 k := fun _ hk => streamBit_congr h hk
  exact ⟨hstream, pack_congr hstream, updateOps_congr hstream polls⟩

end Sys2Proof.Machine
end

section
/-! PROOFS. What a step adds to the trace (R14, R55). -/

namespace Sys2Proof.Machine

theorem trace_of_traceRev_eq {s t : State} (h : t.traceRev = s.traceRev) : t.trace = s.trace :=
  congrArg List.reverse h

/-- Settles O43, by the cases of a step: a transaction adds the operation of its position, which by the invariant is one
of the strategy; reset, waiting, idling and accepting a word add nothing. -/
theorem oneOperationAtATime : Obligations.OneOperationAtATime := by
  intro s t hinv h
  rcases step_cases h with ⟨-, rfl⟩ | ⟨-, hb, p, hs, ⟨-, rfl⟩ | ⟨a, rest, -, rfl⟩⟩ | ⟨-, -, -, rfl⟩ |
    ⟨-, hb, w, ws, -, ha⟩
  · exact .inl rfl
  · exact .inl rfl
  · exact .inr ⟨p, _, hb, hs, opAllowed_posOp (hinv.posOk p hs), transact_trace p a { s with env := rest }⟩
  · exact .inl rfl
  · obtain ⟨-, -, htrace, -⟩ := acceptWord_frame hb ha
    exact .inl (trace_of_traceRev_eq htrace)

end Sys2Proof.Machine
end

section
/-! PROOFS. Decoding and encoding (R60 to R67, R72): a word decodes to a command exactly when it is the word of that
command and the command is well-formed, and a word that meets a row is the word of a command of that row. -/

namespace Sys2Proof

/-! The index of a command and its 12-bit field. -/

theorem toNat_idxOf {idx : Nat} (h : idx ≤ 4095) : (BitVec.ofNat 12 idx).toNat = idx := by
  rw [BitVec.toNat_ofNat]
  exact Nat.mod_eq_of_lt (by omega)

theorem toNat_idx_le (i : BitVec 12) : i.toNat ≤ 4095 := Nat.le_of_lt_succ i.isLt

/-! Decoding and encoding are inverse to each other. -/

/-- The fields of a command's word select the command's row and give its operands back. -/
theorem decode_encode {i : Instr} (h : i.wellFormed = true) : decode (encode i) = .ok i := by
  cases i with
  | setChannel idx val =>
    have hidx : idx ≤ 4095 := of_decide_eq_true h
    simp [encode, decode_fields, toNat_idxOf hidx]
  | readChannel idx =>
    have hidx : idx ≤ 4095 := of_decide_eq_true h
    simp [encode, decode_fields, toNat_idxOf hidx]
  | init | setAll | clear | update => simp [encode, decode_fields]

/-- Settles O4: `decode_encode`, a command at a time; an index that fits its field is read back as it was. -/
theorem decodeOfEncodeIsIdentity : Obligations.DecodeOfEncodeIsIdentity := fun _ => decode_encode

/-- A word that meets a row is the word of a well-formed command of that row: the row's match fixes the fields that the
command has not. -/
theorem exists_instr_of_meets_row {w : Word} {r : OpcodeRow} (hr : r ∈ opcodeRows) (h : w &&& r.mask = r.pattern) :
    ∃ i : Instr, i.wellFormed = true ∧ encode i = w ∧ i.row = r := by
  rw [word_eq_fields w] at h ⊢
  generalize opField w = o, idxField w = idx, valField w = v at h ⊢
  simp only [opcodeRows, List.mem_cons, List.not_mem_nil, or_false] at hr
  rcases hr with rfl | rfl | rfl | rfl | rfl | rfl
  · obtain ⟨rfl, rfl, rfl⟩ := (mask_all o 1 idx v).mp h
    exact ⟨.init, rfl, rfl, rfl⟩
  · obtain rfl := (mask_op o 2 idx v).mp h
    exact ⟨.setChannel idx.toNat v, decide_eq_true (toNat_idx_le idx),
      by rw [encode, BitVec.ofNat_toNat, BitVec.setWidth_eq], rfl⟩
  · obtain ⟨rfl, rfl⟩ := (mask_op_idx o 3 idx v).mp h
    exact ⟨.setAll v, rfl, rfl, rfl⟩
  · obtain ⟨rfl, rfl, rfl⟩ := (mask_all o 4 idx v).mp h
    exact ⟨.clear, rfl, rfl, rfl⟩
  · obtain ⟨rfl, rfl, rfl⟩ := (mask_all o 5 idx v).mp h
    exact ⟨.update, rfl, rfl, rfl⟩
  · obtain ⟨rfl, rfl⟩ := (mask_op_val o 6 idx v).mp h
    exact ⟨.readChannel idx.toNat, decide_eq_true (toNat_idx_le idx),
      by rw [encode, BitVec.ofNat_toNat, BitVec.setWidth_eq], rfl⟩

/-- A word that meets a row decodes to a command of that row. -/
theorem decode_of_meets_row {w : Word} {r : OpcodeRow} (hr : r ∈ opcodeRows) (h : w &&& r.mask = r.pattern) :
    ∃ i, decode w = .ok i ∧ i.row = r := by
  obtain ⟨i, hwf, rfl, hrow⟩ := exists_instr_of_meets_row hr h
  exact ⟨i, decode_encode hwf, hrow⟩

/-- A word that decodes meets a row: the one whose test the decoder took. -/
theorem exists_row_of_decode {w : Word} {i : Instr} (h : decode w = .ok i) :
    ∃ r ∈ opcodeRows, w &&& r.mask = r.pattern := by
  by_contra hno
  push Not at hno
  have hmiss : ∀ r ∈ opcodeRows, meets w r.mask r.pattern = false := fun r hr => by simpa [meets] using hno r hr
  simp only [opcodeRows, List.forall_mem_cons, List.not_mem_nil] at hmiss
  obtain ⟨h1, h2, h3, h4, h5, h6, -⟩ := hmiss
  simp only [decode, h1, h2, h3, h4, h5, h6, Bool.false_eq_true, if_false, reduceCtorEq] at h

/-- The row a word meets makes it the word of a well-formed command, and that command decodes to itself. -/
theorem encode_of_decode {w : Word} {i : Instr} (h : decode w = .ok i) : encode i = w ∧ i.wellFormed = true := by
  obtain ⟨r, hr, hmeet⟩ := exists_row_of_decode h
  obtain ⟨j, hwf, rfl, -⟩ := exists_instr_of_meets_row hr hmeet
  obtain rfl : j = i := Except.ok.inj ((decode_encode hwf).symm.trans h)
  exact ⟨rfl, hwf⟩

/-- Settles O5: the row that the decoder found fixes the word as that of a command, which is the one decoded. -/
theorem encodeOfDecodeIsIdentity : Obligations.EncodeOfDecodeIsIdentity := fun _ _ => encode_of_decode

/-! The rows of the opcode table. -/

/-- A command's word meets the command's own row. -/
theorem encode_meets_row (i : Instr) : i.row ∈ opcodeRows ∧ encode i &&& i.row.mask = i.row.pattern := by
  cases i with
  | init => exact Laws.TableRow.init
  | setChannel idx val => exact Laws.TableRow.setChannel idx val
  | setAll val => exact Laws.TableRow.setAll val
  | clear => exact Laws.TableRow.clear
  | update => exact Laws.TableRow.update
  | readChannel idx => exact Laws.TableRow.readChannel idx

theorem decode_meets_row {w : Word} {i : Instr} (h : decode w = .ok i) :
    i.row ∈ opcodeRows ∧ w &&& i.row.mask = i.row.pattern := by
  obtain ⟨rfl, -⟩ := encode_of_decode h
  exact encode_meets_row i

theorem decode_error_iff (w : Word) :
    (∃ e, decode w = .error e) ↔ ∀ r ∈ opcodeRows, w &&& r.mask ≠ r.pattern := by
  cases h : decode w with
  | error e =>
    refine iff_of_true ⟨e, rfl⟩ fun r hr hmeet => ?_
    obtain ⟨i, hi, -⟩ := decode_of_meets_row hr hmeet
    simp [h] at hi
  | ok i =>
    obtain ⟨hr, hmeet⟩ := decode_meets_row h
    exact iff_of_false (by simp) fun hno => hno i.row hr hmeet

theorem row_unique {w : Word} {r r' : OpcodeRow} (hr : r ∈ opcodeRows) (hr' : r' ∈ opcodeRows)
    (h : w &&& r.mask = r.pattern) (h' : w &&& r'.mask = r'.pattern) : r = r' := by
  obtain ⟨i, hi, rfl⟩ := decode_of_meets_row hr h
  obtain ⟨j, hj, rfl⟩ := decode_of_meets_row hr' h'
  rw [Except.ok.inj (hi.symm.trans hj)]

/-! The operand fields as plain numbers. -/

theorem commandWord_idx (o : BitVec 4) (i : BitVec 12) (v : Entry) :
    (commandWord o i v).toNat / 65536 % 4096 = i.toNat := by
  have hi := i.isLt
  have hv := v.isLt
  rw [commandWord_toNat]
  omega

theorem commandWord_val (o : BitVec 4) (i : BitVec 12) (v : Entry) :
    (commandWord o i v).toNat % 65536 = v.toNat := by
  have hv := v.isLt
  rw [commandWord_toNat]
  omega

/-- Settles O6: a word that decodes is the word of its command, so its row and its fields are the command's; a word that
meets a row decodes to a command of that row. -/
theorem decodeFollowsOpcodeRows : Obligations.DecodeFollowsOpcodeRows := by
  refine ⟨fun w i => decode_meets_row, decode_error_iff, fun w r r' => row_unique, ?_, ?_, ?_⟩
  · intro w idx val h
    obtain ⟨rfl, hwf⟩ := encode_of_decode h
    rw [encode, commandWord_idx, commandWord_val, toNat_idxOf (of_decide_eq_true hwf)]
    exact ⟨rfl, rfl⟩
  · intro w val h
    obtain ⟨rfl, -⟩ := encode_of_decode h
    exact (commandWord_val _ _ _).symm
  · intro w idx h
    obtain ⟨rfl, hwf⟩ := encode_of_decode h
    rw [encode, commandWord_idx, toNat_idxOf (of_decide_eq_true hwf)]

/-- Settles O3: a legal word is the word of its command, an illegal one is decoded. -/
theorem writtenWordsDecode : Obligations.WrittenWordsDecode :=
  ⟨decode_encode (i := .init) rfl, decode_encode (i := .setChannel 3 0x0908) rfl,
    decode_encode (i := .setChannel 4095 0xFFFF) rfl, decode_encode (i := .setAll 0xFFFF) rfl,
    decode_encode (i := .clear) rfl, decode_encode (i := .update) rfl, decode_encode (i := .readChannel 3) rfl,
    rfl, rfl, rfl, rfl, rfl⟩

end Sys2Proof
end

section
/-! PROOFS. The command port (R74, R75): every accepted word is answered once, BUSY accepts none, and a step on an offered
word runs its command, answers the stored fault, or raises one. -/

namespace Sys2Proof.Machine

/-! One response for every accepted word (R74). -/

/-- The responses given and the response that a running command still owes: one for every accepted word. -/
def responsesDue (s : State) : Nat := s.responsesRev.length + (if s.phase = .busy then 1 else 0)

theorem responsesDue_busy {s : State} (h : s.phase = .busy) : responsesDue s = s.responsesRev.length + 1 := by
  rw [responsesDue, if_pos h]

theorem responsesDue_notBusy {s : State} (h : s.phase ≠ .busy) : responsesDue s = s.responsesRev.length := by
  rw [responsesDue, if_neg h, Nat.add_zero]

/-- A command that dispatch has let run answers at once or owes its answer. -/
theorem responsesDue_runOf (i : Instr) (s : State) : responsesDue (runOf i s) = s.responsesRev.length + 1 := by
  rcases runOf_cases i s with ⟨-, -, e⟩ | ⟨-, -, e⟩ | ⟨-, e⟩ | ⟨idx, -, -, e⟩ | ⟨d, m, -, e⟩ <;> rw [e]
  · exact responsesDue_busy rfl
  · exact responsesDue_notBusy (by simp)
  · exact responsesDue_busy rfl
  · exact responsesDue_notBusy (by simp)
  · exact responsesDue_notBusy (by simp)

theorem responsesDue_acceptWord {s t : State} {w : Word} (hb : s.phase ≠ .busy) (ha : acceptWord w s = .next t) :
    responsesDue t = responsesDue s + 1 := by
  rw [responsesDue_notBusy hb]
  rcases acceptWord_cases hb ha with ⟨-, rfl⟩ | ⟨-, -, rfl⟩ | ⟨-, -, rfl⟩ | ⟨i, -, -, rfl⟩
  · exact responsesDue_notBusy hb
  · exact responsesDue_notBusy (by simp)
  · exact responsesDue_notBusy (by simp)
  · exact responsesDue_runOf i (takeWord s)

/-- A transaction goes on in BUSY, or gives the response that was owed. -/
theorem responsesDue_transact (p : Pos) (a : Answer) {s : State} (hb : s.phase = .busy) :
    responsesDue (transact p a s) = responsesDue s := by
  rw [responsesDue_busy hb]
  rcases transact_cases p a s with ⟨_, _, q, -, -, e⟩ | ⟨_, _, -, -, e⟩ | ⟨-, e⟩ <;> rw [e]
  · exact responsesDue_busy hb
  · exact responsesDue_notBusy (by simp)
  · exact responsesDue_notBusy (by cases inInit p <;> simp)

theorem offered_add_due_step {s t : State} (hr : s.resetLine = false) (h : step s = .next t) :
    t.offers.length + responsesDue t = s.offers.length + responsesDue s := by
  by_cases hb : s.phase = .busy
  · rcases step_busy_cases hr hb h with rfl | ⟨p, a, rest, -, rfl⟩
    · rfl
    · obtain ⟨-, -, -, hoffers, -⟩ := transact_frame p a { s with env := rest }
      rw [hoffers, responsesDue_transact p a (s := { s with env := rest }) hb]
      rfl
  · rcases step_port_cases hr hb h with ⟨-, rfl⟩ | ⟨w, ws, ho, ha⟩
    · rfl
    · obtain ⟨-, -, -, -, -, hoffers⟩ := acceptWord_frame hb ha
      rw [hoffers, responsesDue_acceptWord hb ha, ho, List.tail_cons, List.length_cons]
      omega

/-- Settles O47: an acceptance moves one word from the offered to the due, a transaction moves none. -/
theorem oneResponsePerAcceptedWord : Obligations.OneResponsePerAcceptedWord := by
  intro s t hr h
  rw [Nat.add_assoc, Nat.add_assoc]
  exact offered_add_due_step hr h

/-! The port in BUSY (R74). -/

theorem step_busy_offers {s t : State} (hb : s.phase = .busy) (h : step s = .next t) : t.offers = s.offers := by
  rcases step_cases h with ⟨-, rfl⟩ | ⟨-, -, p, -, ⟨-, rfl⟩ | ⟨a, rest, -, rfl⟩⟩ | ⟨-, -, -, rfl⟩ | ⟨-, hb', -⟩
  · rfl
  · rfl
  · obtain ⟨-, -, -, hoffers, -⟩ := transact_frame p a { s with env := rest }
    exact hoffers
  · rfl
  · exact absurd hb hb'

/-- Settles O48: neither a reset, nor a wait, nor a transaction takes a word; `exec` waits in BUSY. -/
theorem portIsClosedWhileBusy : Obligations.PortIsClosedWhileBusy :=
  ⟨fun _ _ => step_busy_offers, fun _ i hb => exec_busy hb i⟩

/-! The command of an offered word (R75). -/

theorem acceptWord_decoded {w : Word} {i : Instr} (hd : decode w = .ok i) (s : State) : acceptWord w s = exec i s := by
  rw [acceptWord, hd]

theorem acceptWord_illegal {w : Word} {e : IllegalWord} (hd : decode w = .error e) (s : State) :
    acceptWord w s = dispatchIllegal s := by
  rw [acceptWord, hd]

/-- Settles O7: `exec` answers a next state, and an acceptance takes the word. -/
theorem stepRunsTheDecodedCommand : Obligations.StepRunsTheDecodedCommand := by
  intro s w ws i hr hb ho hd
  obtain ⟨t, ht⟩ := exec_total i s
  obtain ⟨-, -, -, -, -, hoffers⟩ := acceptWord_frame hb ((acceptWord_decoded hd s).trans ht)
  exact ⟨step_decoded hr hb ho hd, t, ht, by rw [hoffers, ho, List.tail_cons]⟩

/-! Faults of dispatch (R75, R121, R122, R126). -/

theorem takeWord_of_offers {s : State} {w : Word} {ws : List Word} (ho : s.offers = w :: ws) :
    takeWord s = { s with offers := ws } := by
  rw [takeWord, ho, List.tail_cons]

/-- The first fault: it is recorded, answered, and nothing else changes (R121). -/
theorem raiseFault_first {s : State} (h : s.fault.cause = .none) (c : FaultCause) (info : Entry) :
    raiseFault c info s = { s with
      fault := ⟨c, info⟩, phase := .faulted, resp := some (faultedWord ⟨c, info⟩),
      responsesRev := faultedWord ⟨c, info⟩ :: s.responsesRev, seq := none } := by
  rw [raiseFault, recordFault_none h]
  rfl

theorem faultedWord_illegalCmd : faultedWord ⟨.illegalCmd, 0⟩ = 0xF0010000#32 := by decide

theorem faultedWord_notInit : faultedWord ⟨.notInit, 0⟩ = 0xF0020000#32 := by decide

theorem dispatchIllegal_raises {s : State} (h : s.phase = .uninit ∨ s.phase = .ready) :
    dispatchIllegal s = .next (raiseFault .illegalCmd 0 (takeWord s)) := by
  rcases h with h | h <;> rw [dispatchIllegal, h]

theorem dispatchIllegal_faulted {s : State} (h : s.phase = .faulted) :
    dispatchIllegal s = .next (answerFaulted (takeWord s)) := by
  rw [dispatchIllegal, h]

theorem acceptWord_faulted {s : State} (h : s.phase = .faulted) (w : Word) :
    acceptWord w s = .next (answerFaulted (takeWord s)) := by
  cases hd : decode w with
  | ok i => rw [acceptWord_decoded hd, exec_faulted h]
  | error e => rw [acceptWord_illegal hd, dispatchIllegal_faulted h]

/-- Settles O8: the step is the dispatch of an illegal word, which raises the first fault. -/
theorem illegalWordRaisesFault : Obligations.IllegalWordRaisesFault := by
  intro s w ws e hr hp hf ho hd
  have hb : s.phase ≠ .busy := by rcases hp with hp | hp <;> simp [hp]
  rw [step_offered hr hb ho, acceptWord_illegal hd, dispatchIllegal_raises hp,
    raiseFault_first (s := takeWord s) hf, takeWord_of_offers ho, faultedWord_illegalCmd]

/-- Settles O9: in FAULTED the acceptance does not depend on the word. -/
theorem faultedAnswersEveryWord : Obligations.FaultedAnswersEveryWord := by
  intro s w ws hr hp ho
  rw [step_offered hr (by simp [hp]) ho, acceptWord_faulted hp, takeWord_of_offers ho]
  rfl

/-- Settles O10: dispatch refuses the command and raises the first fault. -/
theorem commandBeforeInitRaisesFault : Obligations.CommandBeforeInitRaisesFault := by
  intro s i hi hp hf
  rw [exec_uninit_other hp hi, raiseFault_first (s := takeWord s) hf, faultedWord_notInit]
  rfl

end Sys2Proof.Machine
end

section
/-! PROOFS. INIT: what a valid configuration is (R81), the run of `init_outputs` to its end and to its first error (R80, R82
to R85), and the idle state it leaves (R87). A run is one of a chain of positions (`run_chain_completes`,
`run_chain_fails`). -/

namespace Sys2Proof.Machine

/-! The configuration (R81). -/

theorem strategy_A_or_iff (st : Strategy) (P : Prop) : st = .A ∨ P ↔ (st = .B ∨ st = .C → P) := by
  cases st <;> simp

/-- Settles O19: the checks of `configValid` are the bullets of R81, an `unless` or a `when` being a disjunction. -/
theorem configurationChecksOfInit : Obligations.ConfigurationChecksOfInit := by
  intro cfg
  simp only [configValid, Bool.and_eq_true, Bool.or_eq_true, decide_eq_true_eq, strategy_A_or_iff, ne_eq,
    ← imp_iff_not_or, and_assoc]

/-! The responses and the trace in order (R14). -/

theorem responses_of_responsesRev_cons {s t : State} {w : Word} (h : t.responsesRev = w :: s.responsesRev) :
    t.responses = s.responses ++ [w] := by
  rw [State.responses, h, List.reverse_cons, State.responses]

theorem afterOps_trace (ops : List Op) (as : List Answer) (rest : Env) (s : State) :
    (afterOps ops as rest s).trace = s.trace ++ traced ops as := by
  simp [State.trace, afterOps]

theorem observe_trace (op : Op) (a : Answer) (s : State) : (observe op a s).trace = s.trace ++ [⟨op, replyTo op a⟩] := by
  simp [State.trace]

/-! The acceptance of INIT. -/

/-- The state in which the first operation of INIT is outstanding: the word is taken and the buffer cleared (R80). -/
def initStarted (s : State) : State := startAt (.init (firstInitStep s.cfg)) { takeWord s with buf := [] }

theorem exec_init_valid {s : State} (hp : s.phase = .uninit ∨ s.phase = .ready) (hv : configValid s.cfg = true) :
    exec .init s = .next (initStarted s) := by
  have hrun : runInit (takeWord s) = initStarted s := runInit_valid hv
  rcases hp with hp | hp
  · rw [exec_uninit_init hp, hrun]
  · rw [exec_ready hp, ← hrun]; rfl

theorem initStarted_seq (s : State) : (initStarted s).seq = (initPositions s.cfg).head? :=
  (initPositions_head s.cfg).symm

theorem initPositions_length (cfg : Config) : (initPositions cfg).length = (initOutputs cfg).length := by
  rw [← initPositions_ops cfg [], List.length_map]

/-! The operations of each strategy. -/

theorem initOutputs_A {cfg : Config} (h : cfg.strategy = .A) : initOutputs cfg =
    [.pinSet .data .low, .pinSet .sclk .low, .pinSet .latch .low, .pinSet .gsclk .low, blankSet cfg (offLevel cfg)] := by
  rw [initOutputs, h]

theorem initOutputs_B {cfg : Config} (h : cfg.strategy = .B) : initOutputs cfg =
    [.pinSet .data .low, .pinSet .sclk .low, .pinSet .latch .low, blankSet cfg (offLevel cfg),
      .genStart .gsclk cfg.gsFreq cfg.gsDuty] := by
  rw [initOutputs, h]; rfl

theorem initOutputs_C {cfg : Config} (h : cfg.strategy = .C) : initOutputs cfg =
    [.pinSet .latch .low, blankSet cfg (offLevel cfg), .genStart .gsclk cfg.gsFreq cfg.gsDuty,
      .busOpen cfg.busSpeed] := by
  rw [initOutputs, h]; rfl

/-! INIT runs to its end. -/

/-- INIT with every operation answered Ok issues `init_outputs` and completes (R80). -/
theorem init_completes {s : State} {as : List Answer} {rest : Env} (hr : s.resetLine = false)
    (ht : takeAnswers (initOutputs s.cfg).length s.env = some (as, rest)) (hok : ∀ a ∈ as, a.isOk = true) :
    runSteps (initOutputs s.cfg).length (initStarted s) =
      .next (complete 0 (afterOps (initOutputs s.cfg) as rest (initStarted s))) := by
  rw [← initPositions_length] at ht ⊢
  rw [← initPositions_ops s.cfg []]
  have hne : initPositions s.cfg ≠ [] := fun h => by simpa [h] using initPositions_head s.cfg
  exact run_chain_completes (initPositions_chain s.cfg []) rfl rfl rfl hr (initStarted_seq s) hne ht
    (fun _ a hm => ⟨hok a (List.mem_of_getElem? hm), trivial⟩)

/-- Settles O20: by `init_completes`; the operations by the strategy. -/
theorem initRunsItsOperations : Obligations.InitRunsItsOperations := by
  intro s as rest hp hr hv ht hok
  refine ⟨_, _, exec_init_valid hp hv, rfl, init_completes hr ht hok, ?_, initOutputs_A, initOutputs_B, initOutputs_C,
    rfl, congrArg some okWord_zero, ?_, fun _ => rfl, rfl, rfl, rfl, rfl, rfl, hr⟩
  · exact afterOps_trace _ as rest (initStarted s)
  · exact responses_of_responsesRev_cons (congrArg (· :: s.responsesRev) okWord_zero)

/-! The outputs, the generator and the bus after `init_outputs` (R87). -/

@[simp] theorem levelsAfter_pinSet_ok (sig : Signal) (l : Level) (v : Levels) :
    levelsAfter (.pinSet sig l) true v = v.set sig (.driven l) := rfl
@[simp] theorem levelsAfter_genStart (sig : Signal) (f d : Rat) (ok : Bool) (v : Levels) :
    levelsAfter (.genStart sig f d) ok v = v := rfl
@[simp] theorem levelsAfter_busOpen (sp : Rat) (ok : Bool) (v : Levels) : levelsAfter (.busOpen sp) ok v = v := rfl

@[simp] theorem genOnAfter_pinSet (sig : Signal) (l : Level) (ok g : Bool) : genOnAfter (.pinSet sig l) ok g = g := rfl
@[simp] theorem genOnAfter_genStart (sig : Signal) (f d : Rat) (ok g : Bool) :
    genOnAfter (.genStart sig f d) ok g = (g || ok) := rfl
@[simp] theorem genOnAfter_busOpen (sp : Rat) (ok g : Bool) : genOnAfter (.busOpen sp) ok g = g := rfl

@[simp] theorem busOpenAfter_pinSet (sig : Signal) (l : Level) (ok b : Bool) :
    busOpenAfter (.pinSet sig l) ok b = b := rfl
@[simp] theorem busOpenAfter_genStart (sig : Signal) (f d : Rat) (ok b : Bool) :
    busOpenAfter (.genStart sig f d) ok b = b := rfl
@[simp] theorem busOpenAfter_busOpen (sp : Rat) (ok b : Bool) : busOpenAfter (.busOpen sp) ok b = (b || ok) := rfl

section
variable {cfg : Config} (as : List Answer) (rest : Env) (s : State)

theorem afterOps_initOutputs_A (h : cfg.strategy = .A) :
    (afterOps (initOutputs cfg) as rest s).lvl =
      ⟨.driven .low, .driven .low, .driven .low, .driven .low, .driven (offLevel cfg)⟩ ∧
    (afterOps (initOutputs cfg) as rest s).genOn = s.genOn ∧
    (afterOps (initOutputs cfg) as rest s).busOpen = s.busOpen := by
  simp [afterOps, initOutputs_A h, levelsAfter_blankSet, Levels.set]

theorem afterOps_initOutputs_B (h : cfg.strategy = .B) :
    (afterOps (initOutputs cfg) as rest s).lvl =
      ⟨.driven .low, .driven .low, .driven .low, s.lvl.gsclk, .driven (offLevel cfg)⟩ ∧
    (afterOps (initOutputs cfg) as rest s).genOn = true ∧
    (afterOps (initOutputs cfg) as rest s).busOpen = s.busOpen := by
  simp [afterOps, initOutputs_B h, levelsAfter_blankSet, Levels.set]

theorem afterOps_initOutputs_C (h : cfg.strategy = .C) :
    (afterOps (initOutputs cfg) as rest s).lvl =
      ⟨s.lvl.data, s.lvl.sclk, .driven .low, s.lvl.gsclk, .driven (offLevel cfg)⟩ ∧
    (afterOps (initOutputs cfg) as rest s).genOn = true ∧
    (afterOps (initOutputs cfg) as rest s).busOpen = true := by
  simp [afterOps, initOutputs_C h, levelsAfter_blankSet, Levels.set]

end

@[simp] theorem initStarted_lvl (s : State) : (initStarted s).lvl = s.lvl := rfl
@[simp] theorem initStarted_genOn (s : State) : (initStarted s).genOn = s.genOn := rfl
@[simp] theorem initStarted_busOpen (s : State) : (initStarted s).busOpen = s.busOpen := rfl

/-- Settles O21: INIT ends as `init_completes` says, and what its operations leave is known for each strategy. -/
theorem initLeavesOutputsIdle : Obligations.InitLeavesOutputsIdle := by
  intro s t u as rest hp hr hv ht hok he hu
  obtain rfl : initStarted s = t := by simpa [exec_init_valid hp hv] using he
  obtain rfl : complete 0 (afterOps (initOutputs s.cfg) as rest (initStarted s)) = u := by
    simpa [init_completes hr ht hok] using hu
  cases hs : s.cfg.strategy with
  | A => simp [afterOps_initOutputs_A _ _ _ hs]
  | B => simp [afterOps_initOutputs_B _ _ _ hs]
  | C => simp [afterOps_initOutputs_C _ _ _ hs]

/-! INIT ends at its first error. -/

/-- INIT with the operation after `as` answered Err ends there with an I/O error (R85, R123). -/
theorem init_fails {s : State} {op : Op} {as : List Answer} {rest : Env} (hr : s.resetLine = false)
    (hop : (initOutputs s.cfg)[as.length]? = some op)
    (ht : takeAnswers (as.length + 1) s.env = some (as ++ [.err], rest)) (hok : ∀ a ∈ as, a.isOk = true) :
    runSteps (as.length + 1) (initStarted s) =
      .next (raiseIoError true op.signal
        (observe op .err (afterOps ((initOutputs s.cfg).take as.length) as rest (initStarted s)))) := by
  rw [← initPositions_ops s.cfg [], List.getElem?_map, Option.map_eq_some_iff] at hop
  obtain ⟨p, hp, rfl⟩ := hop
  obtain ⟨mid, hrun⟩ := run_chain_fails (s := initStarted s) (initPositions_chain s.cfg []) rfl rfl rfl hr
    (initStarted_seq s) hp ht (fun _ a hm => ⟨hok a (List.mem_of_getElem? hm), trivial⟩)
  rw [hrun, ← initPositions_ops s.cfg [], ← List.map_take, transact, initPositions_inInit (List.mem_of_getElem? hp)]
  rfl

/-- An operation answered Err leaves the output that it sets or holds UNKNOWN (R28). -/
theorem levelsAfter_err_unknown {op : Op} {sig : Signal} (v : Levels)
    (hop : (∃ l, op = .pinSet sig l) ∨ ∃ d, op = .genDuty sig d) (hsig : sig ≠ .bus) :
    (levelsAfter op false v).get sig = .unknown := by
  rcases hop with ⟨l, rfl⟩ | ⟨d, rfl⟩
  · exact levelsAfter_pinSet_same sig l false v hsig
  · exact levels_get_set_same v sig _ hsig

/-- Settles O22: by `init_fails`; the state it ends in is one that accepts INIT, under the same configuration. -/
theorem initStopsAtFirstError : Obligations.InitStopsAtFirstError := by
  intro s j op as rest hp hr hv hop ht hok
  obtain rfl : as.length = j := by simpa using takeAnswers_length ht
  refine ⟨_, _, exec_init_valid hp hv, init_fails hr hop ht hok, ?_, rfl, congrArg some (ioErrorWord_eq op.signal), ?_,
    fun _ => rfl, rfl, rfl, fun _ => levelsAfter_err_unknown _, rfl, rfl, rfl, _,
    exec_init_valid (.inl rfl) hv, rfl, rfl, rfl⟩
  · refine (observe_trace op .err _).trans ?_
    rw [afterOps_trace]
    rfl
  · exact responses_of_responsesRev_cons (congrArg (· :: s.responsesRev) (ioErrorWord_eq op.signal))

end Sys2Proof.Machine
end

section
/-! PROOFS. The buffer commands (R90 to R95): their words, what each does in READY, in range and out of range, that none
touches an output, and the two laws of R95. Both laws are runs of offered words (`step_ready_encoded`). -/

namespace Sys2Proof.Machine

/-! The words (R63, R64, R65, R67). -/

theorem encode_setChannel_toNat {idx : Nat} (val : Entry) (h : idx ≤ 4095) :
    (encode (.setChannel idx val)).toNat = 0x20000000 + idx * 65536 + val.toNat := by
  rw [encode, commandWord_toNat, toNat_idxOf h]
  rfl

theorem encode_setAll_toNat (val : Entry) : (encode (.setAll val)).toNat = 0x30000000 + val.toNat := by
  rw [encode, commandWord_toNat]
  rfl

theorem encode_readChannel_toNat {idx : Nat} (h : idx ≤ 4095) :
    (encode (.readChannel idx)).toNat = 0x60000000 + idx * 65536 := by
  rw [encode, commandWord_toNat, toNat_idxOf h]
  rfl

/-! A command that completes in READY, and one whose index is out of range. -/

theorem checkIdx_inRange {idx : Nat} {s : State} (h : idx < s.cfg.n) (run : State → State) :
    checkIdx idx run s = run s :=
  if_pos (decide_eq_true h)

theorem checkIdx_oob {idx : Nat} {s : State} (h : s.cfg.n ≤ idx) (run : State → State) :
    checkIdx idx run s = raiseFault .indexOob (idxInfo idx) s :=
  if_neg (by simpa [idxInRange] using h)

theorem runOf_setChannel {idx : Nat} {s : State} (h : idx < s.cfg.n) (val : Entry) :
    runOf (.setChannel idx val) s = complete 0 { s with buf := s.buf.write idx val } := by
  rw [runOf, checkIdx_inRange h]

theorem runOf_readChannel {idx : Nat} {s : State} (h : idx < s.cfg.n) :
    runOf (.readChannel idx) s = complete (s.buf.read idx) s := by
  rw [runOf, checkIdx_inRange h]

/-- The two commands with an index fault when it is out of range (R41). -/
theorem runOf_oob {i : Instr} {idx : Nat} {s : State} (hi : (∃ v, i = .setChannel idx v) ∨ i = .readChannel idx)
    (h : s.cfg.n ≤ idx) : runOf i s = raiseFault .indexOob (idxInfo idx) s := by
  rcases hi with ⟨v, rfl⟩ | rfl <;> rw [runOf, checkIdx_oob h]

theorem complete_of_ready {s : State} (hp : s.phase = .ready) (d : Entry) :
    complete d s = { s with resp := some (okWord d), responsesRev := okWord d :: s.responsesRev, seq := none } := by
  rw [complete, setPhase, ← hp]
  rfl

/-- In READY a command that completes takes its word, leaves its buffer and its answer, and nothing else changes. -/
theorem exec_completes {s : State} {i : Instr} {d : Entry} {w : Word} {m : Memory} (hp : s.phase = .ready)
    (h : runOf i (takeWord s) = complete d { takeWord s with buf := m }) (hw : okWord d = w) :
    exec i s = .next { s with
      offers := s.offers.tail, buf := m, resp := some w, responsesRev := w :: s.responsesRev, seq := none } := by
  rw [exec_ready hp, h, complete_of_ready (s := { takeWord s with buf := m }) hp, hw]
  rfl

/-- In READY, with no fault recorded, an index out of range is the first fault (R122). -/
theorem exec_oob {s : State} {i : Instr} {idx : Nat} (hi : (∃ v, i = .setChannel idx v) ∨ i = .readChannel idx)
    (hp : s.phase = .ready) (hf : s.fault.cause = .none) (hidx : s.cfg.n ≤ idx) :
    exec i s = .next { s with
      offers := s.offers.tail, fault := ⟨.indexOob, BitVec.ofNat 16 idx⟩, phase := .faulted,
      resp := some (0xF003#16 ++ BitVec.ofNat 16 idx),
      responsesRev := (0xF003#16 ++ BitVec.ofNat 16 idx) :: s.responsesRev, seq := none } := by
  rw [exec_ready hp, runOf_oob (s := takeWord s) hi hidx, raiseFault_first (s := takeWord s) hf, faultedWord_oob]
  rfl

/-- Settles O11: in range the command completes with one entry written, out of range it raises the fault. -/
theorem setChannelWritesOneEntry : Obligations.SetChannelWritesOneEntry := by
  refine ⟨fun idx val => encode_setChannel_toNat val, fun s idx val hp hwf hidx => ?_,
    fun s idx val hp hf hidx _ => exec_oob (.inl ⟨val, rfl⟩) hp hf hidx⟩
  have hrun := runOf_setChannel (s := takeWord s) hidx val
  exact ⟨s.buf.write idx val, exec_completes hp hrun okWord_zero, read_write_same val hwf,
    fun j hj => read_write_other val hj s.buf⟩

theorem read_fill_of_lt {n i : Nat} (h : i < n) (v : Entry) : (Memory.fill n v).read i = v := by
  rw [read_fill, if_pos h]

/-- Settles O12: the command completes with the buffer filled. -/
theorem setAllWritesEveryEntry : Obligations.SetAllWritesEveryEntry :=
  ⟨encode_setAll_toNat, fun s val hp =>
    ⟨Memory.fill s.cfg.n val, exec_completes hp rfl okWord_zero, fun _ hi => read_fill_of_lt hi val⟩⟩

theorem exec_clear_eq_setAll_zero (s : State) : exec .clear s = exec (.setAll 0) s := rfl

/-- Settles O13: CLEAR runs as SET_ALL 0, whose word has another opcode. -/
theorem clearSetsEveryEntryToZero : Obligations.ClearSetsEveryEntryToZero := by
  refine ⟨rfl, fun s hp => ?_, exec_clear_eq_setAll_zero, by decide⟩
  obtain ⟨-, hfill⟩ := setAllWritesEveryEntry
  rw [exec_clear_eq_setAll_zero]
  exact hfill s 0 hp

/-- Settles O14: in range the command completes with the entry as data, out of range it raises the fault. -/
theorem readChannelReturnsTheEntry : Obligations.ReadChannelReturnsTheEntry := by
  refine ⟨fun idx => encode_readChannel_toNat, fun s idx hp hidx => ?_,
    fun s idx hp hf hidx _ => exec_oob (.inr rfl) hp hf hidx⟩
  exact exec_completes hp (runOf_readChannel (s := takeWord s) hidx) (okWord_eq _)

/-! No output is touched (R94). -/

theorem runOf_env (i : Instr) (s : State) : (runOf i s).env = s.env := by
  rcases runOf_cases i s with ⟨-, -, e⟩ | ⟨-, -, e⟩ | ⟨-, e⟩ | ⟨idx, -, -, e⟩ | ⟨d, m, -, e⟩ <;> rw [e] <;> rfl

/-- The step that accepts a command waits, answers the stored fault, raises a fault, or runs the command. -/
theorem exec_cases {i : Instr} {s t : State} (h : exec i s = .next t) :
    t = s ∨ t = answerFaulted (takeWord s) ∨ t = raiseFault .notInit 0 (takeWord s) ∨ t = runOf i (takeWord s) := by
  cases hp : s.phase with
  | uninit =>
    by_cases hi : i = .init
    · subst hi
      rw [exec_uninit_init hp] at h
      exact .inr (.inr (.inr (Host.Outcome.next.inj h).symm))
    · rw [exec_uninit_other hp hi] at h
      exact .inr (.inr (.inl (Host.Outcome.next.inj h).symm))
  | ready =>
    rw [exec_ready hp] at h
    exact .inr (.inr (.inr (Host.Outcome.next.inj h).symm))
  | busy =>
    rw [exec_busy hp] at h
    exact .inl (Host.Outcome.next.inj h).symm
  | faulted =>
    rw [exec_faulted hp] at h
    exact .inr (.inl (Host.Outcome.next.inj h).symm)

/-- Settles O15: of the ways `exec` goes, only running a command could issue something, and its first step does not
(`runOf_frame`). -/
theorem bufferCommandsTouchNoOutput : Obligations.BufferCommandsTouchNoOutput := by
  intro i s t _ _ h
  rcases exec_cases h with rfl | rfl | rfl | rfl
  · exact ⟨rfl, rfl, rfl, rfl, rfl, rfl⟩
  · exact ⟨rfl, rfl, rfl, rfl, rfl, rfl⟩
  · exact ⟨rfl, rfl, rfl, rfl, rfl, rfl⟩
  · obtain ⟨hgen, hbus, htrace, hcfg, hlvl, -⟩ := runOf_frame i (takeWord s)
    exact ⟨congrArg List.reverse htrace, hlvl, hgen, hbus, hcfg, runOf_env i (takeWord s)⟩

/-! Runs of offered words. -/

theorem runSteps_succ {k : Nat} {s t : State} (h : step s = .next t) : runSteps (k + 1) s = runSteps k t := by
  rw [runSteps, h]

/-- In READY a step on the word of a command runs the command. -/
theorem step_ready_encoded {s : State} {i : Instr} {ws : List Word} (hr : s.resetLine = false) (hp : s.phase = .ready)
    (ho : s.offers = encode i :: ws) (hi : i.wellFormed = true) :
    step s = .next (runOf i { s with offers := ws }) := by
  rw [step_decoded hr (by simp [hp]) ho (decode_encode hi), exec_ready hp, takeWord_of_offers ho]

/-- In READY a step on the word of SET_CHANNEL, in range, writes the entry. -/
theorem step_setChannel {s : State} {idx : Nat} {v : Entry} {ws : List Word} (hr : s.resetLine = false)
    (hp : s.phase = .ready) (ho : s.offers = encode (.setChannel idx v) :: ws) (hidx : idx < s.cfg.n)
    (hfit : idx ≤ 4095) :
    step s = .next (complete 0 { s with offers := ws, buf := s.buf.write idx v }) := by
  rw [step_ready_encoded hr hp ho (decide_eq_true hfit)]
  exact congrArg _ (runOf_setChannel (s := { s with offers := ws }) hidx v)

/-- In READY a step on the word of READ_CHANNEL, in range, answers the entry. -/
theorem step_readChannel {s : State} {idx : Nat} {ws : List Word} (hr : s.resetLine = false) (hp : s.phase = .ready)
    (ho : s.offers = encode (.readChannel idx) :: ws) (hidx : idx < s.cfg.n) (hfit : idx ≤ 4095) :
    step s = .next (complete (s.buf.read idx) { s with offers := ws }) := by
  rw [step_ready_encoded hr hp ho (decide_eq_true hfit)]
  exact congrArg _ (runOf_readChannel (s := { s with offers := ws }) hidx)

/-! First law of R95: a read after a write. -/

/-- Settles O16: the two steps by `step_setChannel` and `step_readChannel`; the entry read is the one just written. -/
theorem readAfterSetAnswersTheValue : Obligations.ReadAfterSetAnswersTheValue := by
  intro s i v ws hr hp hwf hi hfit ho
  have hset := step_setChannel hr hp ho hi hfit
  have hread := step_readChannel
    (s := complete 0 { s with offers := encode (.readChannel i) :: ws, buf := s.buf.write i v }) hr rfl rfl hi hfit
  have hval : (s.buf.write i v).read i = v := read_write_same v hwf
  refine ⟨_, (runSteps_succ hset).trans (runSteps_succ hread), rfl, rfl, ?_, hval,
    fun j hj => read_write_other v hj s.buf⟩
  simp only [State.responses, complete_responsesRev, complete_buf, hval, okWord_eq, List.reverse_cons, List.append_assoc]
  rfl

/-! Second law of R95: SET_ALL, and SET_CHANNEL of every channel. -/

/-- The buffer after writing `v` at each of the indexes in turn. -/
def writeEach (v : Entry) (is : List Nat) (m : Memory) : Memory := is.foldl (fun m i => m.write i v) m

theorem writeEach_cons (v : Entry) (i : Nat) (is : List Nat) (m : Memory) :
    writeEach v (i :: is) m = writeEach v is (m.write i v) := rfl

theorem wf_writeEach (v : Entry) (is : List Nat) {m : Memory} (h : m.wf = true) : (writeEach v is m).wf = true := by
  induction is generalizing m with
  | nil => exact h
  | cons i is ih => exact ih (wf_write i v h)

theorem read_writeEach (v : Entry) (is : List Nat) {m : Memory} (h : m.wf = true) (j : Nat) :
    (writeEach v is m).read j = if j ∈ is then v else m.read j := by
  induction is generalizing m with
  | nil => simp [writeEach]
  | cons i is ih =>
    rw [writeEach_cons, ih (wf_write i v h)]
    by_cases hj : j = i
    · subst hj
      simp [read_write_same v h]
    · simp [read_write_other v hj m, hj]

/-- Writing every channel is filling: canonical buffers that read alike are equal (R95). -/
theorem writeEach_range_eq_fill (v : Entry) {n : Nat} {m : Memory} (hwf : m.wf = true) (hbelow : m.below n = true) :
    writeEach v (List.range n) m = Memory.fill n v := by
  refine eq_of_read_eq (wf_writeEach v _ hwf) (wf_fill n v) fun i => ?_
  rw [read_writeEach v _ hwf, read_fill]
  by_cases hi : i < n
  · simp [hi]
  · simp [hi, read_of_below (Nat.le_of_not_lt hi) hbelow]

/-- The words of SET_CHANNEL for a list of channels write each of them and answer OK for each. -/
theorem runSteps_setChannels (v : Entry) (ws : List Word) {is : List Nat} {s : State} (hr : s.resetLine = false)
    (hp : s.phase = .ready) (his : ∀ i ∈ is, i < s.cfg.n ∧ i ≤ 4095)
    (ho : s.offers = is.map (fun i => encode (.setChannel i v)) ++ ws) :
    runSteps is.length s = .next ((complete 0)^[is.length] { s with offers := ws, buf := writeEach v is s.buf }) := by
  induction is generalizing s with
  | nil =>
    have ho : s.offers = ws := ho
    rw [← ho]
    rfl
  | cons i is ih =>
    obtain ⟨hi, hfit⟩ := his i (List.mem_cons_self ..)
    refine (runSteps_succ (step_setChannel hr hp ho hi hfit)).trans ?_
    exact ih (s := complete 0 { s with offers := _, buf := s.buf.write i v }) hr rfl
      (fun j hj => his j (List.mem_cons_of_mem i hj)) rfl

theorem complete_zero (s : State) : complete 0 s =
    { s with phase := .ready, resp := some 0#32, responsesRev := 0#32 :: s.responsesRev, seq := none } := by
  rw [← okWord_zero]
  rfl

/-- Completing several commands leaves what completing one does, but for the list of answers. -/
theorem complete_zero_iterate {k : Nat} (hk : 1 ≤ k) (s : State) :
    (complete 0)^[k] s = { complete 0 s with responsesRev := List.replicate k 0#32 ++ s.responsesRev } := by
  induction k, hk using Nat.le_induction with
  | base => exact complete_zero s
  | succ k _ ih =>
    rw [Function.iterate_succ_apply', ih, complete_zero]
    rfl

/-- Settles O17: the N writes fill the buffer (`writeEach_range_eq_fill`), and every one of the N answers leaves the same
state but for the list of answers (`complete_zero_iterate`). -/
theorem setAllEqualsSettingEveryChannel : Obligations.SetAllEqualsSettingEveryChannel := by
  intro s v ws hinv hr hp
  obtain ⟨⟨hpos, hmax, -⟩, -⟩ := (configurationChecksOfInit s.cfg).mp (hinv.configOk (.inl hp))
  have hchannels : ∀ i ∈ List.range s.cfg.n, i < s.cfg.n ∧ i ≤ 4095 := fun i hi =>
    have hlt := List.mem_range.mp hi
    ⟨hlt, Nat.le_of_lt_succ (hlt.trans_le hmax)⟩
  have hset := runSteps_setChannels v ws (is := List.range s.cfg.n)
    (s := { s with offers := (List.range s.cfg.n).map (fun i => encode (.setChannel i v)) ++ ws }) hr hp hchannels rfl
  have hall := step_ready_encoded (s := { s with offers := encode (.setAll v) :: ws }) hr hp rfl rfl
  rw [writeEach_range_eq_fill v hinv.canonical hinv.inRange, List.length_range, complete_zero_iterate hpos] at hset
  refine ⟨_, _, hset, runSteps_succ hall, rfl, ?_, ?_⟩
  · simp [State.responses]
  · exact responses_of_responsesRev_cons (congrArg (· :: s.responsesRev) okWord_zero)

end Sys2Proof.Machine
end

section
/-! PROOFS. The operations of an UPDATE (R100 to R110): the list of each strategy in full, their number (R113), the pulses
of strategy A (R103), and which strategy touches the greyscale clock (R114). -/

namespace Sys2Proof.Machine

theorem Op.ne_of_signal_ne {o o' : Op} (h : o.signal ≠ o'.signal) : o ≠ o' := fun e => h (congrArg Op.signal e)

/-! The operations of each strategy. -/

section
variable {cfg : Config} (buf : Memory) (polls : Nat)

theorem updateOps_A (h : cfg.strategy = .A) : updateOps cfg buf polls =
    blankSet cfg (offLevel cfg) :: ((List.range 4096).flatMap (tickOps cfg.n buf) ++
      [.pinSet .latch .high, .pinSet .latch .low, blankSet cfg (onLevel cfg)]) := by
  rw [updateOps, transfer, h]; rfl

theorem updateOps_B (h : cfg.strategy = .B) : updateOps cfg buf polls =
    blankSet cfg (offLevel cfg) :: ((List.range (12 * cfg.n)).flatMap (bitOps cfg.n buf) ++
      [.pinSet .data .low, .pinSet .latch .high, .pinSet .latch .low, blankSet cfg (onLevel cfg)]) := by
  rw [updateOps, transfer, h, transferB, List.append_assoc]; rfl

theorem updateOps_C_unframed (h : cfg.strategy = .C) (hf : cfg.framing = .none) : updateOps cfg buf polls =
    [blankSet cfg (offLevel cfg), .busWrite (pack cfg.n buf), .pinSet .latch .high, .pinSet .latch .low,
      blankSet cfg (onLevel cfg)] := by
  simp only [updateOps, transfer, h, transferC, hf]; rfl

theorem updateOps_C_framed (h : cfg.strategy = .C) (hf : cfg.framing = .wrenPoll) : updateOps cfg buf polls =
    [blankSet cfg (offLevel cfg), .busWrite [cfg.wrenCmd], .busWrite (pack cfg.n buf)] ++
      List.replicate polls (statusPoll cfg) ++
      [.pinSet .latch .high, .pinSet .latch .low, blankSet cfg (onLevel cfg)] := by
  simp only [updateOps, transfer, h, transferC, hf]; rfl

end

/-- Settles O30: the list of each strategy, a pulse and a status poll written out. -/
theorem strategyBAndCOperations : Obligations.StrategyBAndCOperations := fun _ buf polls =>
  ⟨updateOps_B buf polls, updateOps_C_unframed buf polls, updateOps_C_framed buf polls⟩

/-! Their number (R113). -/

/-- The stream of a valid configuration of strategy A ends before the last tick (R81). -/
theorem bits_lt_ticks {cfg : Config} (hv : configValid cfg = true) (hs : cfg.strategy = .A) : 12 * cfg.n < 4096 := by
  obtain ⟨⟨-, -, hmax⟩, -⟩ := (configurationChecksOfInit cfg).mp hv
  have := hmax hs
  omega

/-- Five operations for a tick that shifts, three for tick 12N, two for a later one. -/
theorem transferA_length {n : Nat} (buf : Memory) (h : 12 * n < 4096) : (transferA n buf).length = 36 * n + 8193 := by
  have hshift : ((List.range' 0 (12 * n)).flatMap (tickOps n buf)).length = 5 * (12 * n) :=
    length_flatMap_range' _ 5 _ _ fun t _ ht => by rw [tickOps_lt buf (by omega)]; rfl
  have hlater : ((List.range' (12 * n + 1) (4095 - 12 * n)).flatMap (tickOps n buf)).length = 2 * (4095 - 12 * n) :=
    length_flatMap_range' _ 2 _ _ fun t ht _ => by rw [tickOps_gt buf (by omega)]; rfl
  have htick : (tickOps n buf (12 * n)).length = 3 := by rw [tickOps_eq]; rfl
  rw [transferA_split h, List.length_append, List.length_append, hshift, htick, hlater]
  omega

/-- Three operations for each stream bit, and DATA driven low. -/
theorem transferB_length (n : Nat) (buf : Memory) : (transferB n buf).length = 36 * n + 1 := by
  have hbits : ((List.range' 0 (12 * n)).flatMap (bitOps n buf)).length = 3 * (12 * n) :=
    length_flatMap_range' _ 3 _ _ fun _ _ _ => rfl
  rw [transferB, List.range_eq_range', List.length_append, nbits, hbits, List.length_singleton]
  omega

theorem updateOps_length (cfg : Config) (buf : Memory) (polls : Nat) :
    (updateOps cfg buf polls).length = (transfer cfg buf polls).length + 4 := by
  simp [updateOps, pulse]

/-- Settles O28: four operations beside the transfer, whose length is known for each strategy. -/
theorem updateOperationCounts : Obligations.UpdateOperationCounts := by
  intro cfg buf polls hv
  refine ⟨fun hs => ?_, fun hs => ?_, fun hs hf => ?_, fun hs hf => ?_⟩
  · rw [updateOps_length, transfer, hs, transferA_length buf (bits_lt_ticks hv hs)]
  · rw [updateOps_length, transfer, hs, transferB_length]
  · rw [updateOps_C_unframed buf polls hs hf]; rfl
  · simp [updateOps_C_framed buf polls hs hf]; omega

/-! The pulses of strategy A (R103). -/

theorem count_tickOps_gsclk (n : Nat) (buf : Memory) (t : Nat) (l : Level) :
    (tickOps n buf t).count (.pinSet .gsclk l) = 1 := by
  rcases Nat.lt_trichotomy t (12 * n) with ht | rfl | ht
  · rw [tickOps_lt buf ht]; cases l <;> simp [pulse]
  · rw [tickOps_eq]; cases l <;> simp [pulse]
  · rw [tickOps_gt buf ht]; cases l <;> simp [pulse]

theorem count_tickOps_sclk_of_lt {n t : Nat} (buf : Memory) (ht : t < 12 * n) (l : Level) :
    (tickOps n buf t).count (.pinSet .sclk l) = 1 := by
  rw [tickOps_lt buf ht]; cases l <;> simp [pulse]

theorem count_tickOps_sclk_of_ge {n t : Nat} (buf : Memory) (ht : 12 * n ≤ t) (l : Level) :
    (tickOps n buf t).count (.pinSet .sclk l) = 0 := by
  rcases ht.eq_or_lt with rfl | ht
  · rw [tickOps_eq]; simp [pulse]
  · rw [tickOps_gt buf ht]; simp [pulse]

theorem count_transferA_gsclk (n : Nat) (buf : Memory) (l : Level) :
    (transferA n buf).count (.pinSet .gsclk l) = 4096 := by
  rw [transferA, List.range_eq_range',
    count_flatMap_range' _ 1 _ _ _ fun t _ _ => count_tickOps_gsclk n buf t l, Nat.one_mul]

/-- SCLK is pulsed once in each of the first 12N ticks and in no later one. -/
theorem count_transferA_sclk {n : Nat} (buf : Memory) (h : 12 * n < 4096) (l : Level) :
    (transferA n buf).count (.pinSet .sclk l) = 12 * n := by
  rw [transferA_split h, List.count_append, List.count_append,
    count_flatMap_range' _ 1 _ _ _ fun t _ ht => count_tickOps_sclk_of_lt buf (by omega) l,
    count_tickOps_sclk_of_ge buf (Nat.le_refl _) l,
    count_flatMap_range' _ 0 _ _ _ fun t ht _ => count_tickOps_sclk_of_ge buf (by omega) l]
  omega

/-- An operation on neither BLANK nor LATCH is one of the transfer. -/
theorem count_updateOps {o : Op} (hb : o.signal ≠ .blank) (hl : o.signal ≠ .latch) (cfg : Config) (buf : Memory)
    (polls : Nat) : (updateOps cfg buf polls).count o = (transfer cfg buf polls).count o := by
  have hblank (l : Level) : blankSet cfg l ≠ o := Op.ne_of_signal_ne (by simpa using hb.symm)
  have hlatch (l : Level) : Op.pinSet .latch l ≠ o := Op.ne_of_signal_ne hl.symm
  simp [updateOps, pulse, hblank, hlatch]

/-- Settles O29: by the pulses of a tick; the list of operations with each tick written out. -/
theorem strategyAPulses : Obligations.StrategyAPulses := by
  intro cfg buf polls hv hs
  have hg (l : Level) : (updateOps cfg buf polls).count (.pinSet .gsclk l) = 4096 := by
    rw [count_updateOps (by simp [Op.signal]) (by simp [Op.signal]), transfer, hs, count_transferA_gsclk]
  have hc (l : Level) : (updateOps cfg buf polls).count (.pinSet .sclk l) = 12 * cfg.n := by
    rw [count_updateOps (by simp [Op.signal]) (by simp [Op.signal]), transfer, hs,
      count_transferA_sclk buf (bits_lt_ticks hv hs)]
  refine ⟨hg .high, hg .low, hc .high, hc .low, ?_⟩
  rw [updateOps_A buf polls hs]
  congr 3
  funext t
  rcases Nat.lt_trichotomy t (12 * cfg.n) with ht | rfl | ht
  · rw [tickOps_lt buf ht, if_pos ht]; rfl
  · rw [tickOps_eq, if_neg (Nat.lt_irrefl _), if_pos rfl]; rfl
  · rw [tickOps_gt buf ht, if_neg (by omega), if_neg (by omega)]; rfl

/-! The signals of an UPDATE, and the greyscale clock (R114). -/

theorem mem_updateOps {cfg : Config} {buf : Memory} {polls : Nat} {op : Op} : op ∈ updateOps cfg buf polls ↔
    op = blankSet cfg (offLevel cfg) ∨ op ∈ transfer cfg buf polls ∨ op ∈ pulse .latch ∨
      op = blankSet cfg (onLevel cfg) := by
  simp [updateOps]

theorem pulse_signal {sig : Signal} {op : Op} (h : op ∈ pulse sig) : op.signal = sig := by
  simp only [pulse, List.mem_cons, List.not_mem_nil, or_false] at h
  rcases h with rfl | rfl <;> rfl

theorem bitOps_signal {n : Nat} {buf : Memory} {k : Nat} {op : Op} (h : op ∈ bitOps n buf k) :
    op.signal = .data ∨ op.signal = .sclk := by
  rcases List.mem_cons.mp h with rfl | h
  · exact .inl rfl
  · exact .inr (pulse_signal h)

theorem transferB_signal {n : Nat} {buf : Memory} {op : Op} (h : op ∈ transferB n buf) :
    op.signal = .data ∨ op.signal = .sclk := by
  rcases List.mem_append.mp h with h | h
  · obtain ⟨k, -, h⟩ := List.mem_flatMap.mp h
    exact bitOps_signal h
  · rw [List.mem_singleton.mp h]
    exact .inl rfl

theorem transferC_signal {cfg : Config} {buf : Memory} {polls : Nat} {op : Op} (h : op ∈ transferC cfg buf polls) :
    op.signal = .bus := by
  cases hf : cfg.framing with
  | none =>
    simp only [transferC, hf, List.mem_singleton] at h
    rw [h, Op.signal]
  | wrenPoll =>
    simp only [transferC, hf, List.mem_append, List.mem_cons, List.not_mem_nil, or_false] at h
    rcases h with (rfl | rfl) | h
    · rfl
    · rfl
    · rw [List.eq_of_mem_replicate h]; rfl

theorem transfer_signal_ne_gsclk {cfg : Config} {buf : Memory} {polls : Nat} (hs : cfg.strategy ≠ .A) {op : Op}
    (hop : op ∈ transfer cfg buf polls) : op.signal ≠ .gsclk := by
  cases h : cfg.strategy with
  | A => exact absurd h hs
  | B =>
    rw [transfer, h] at hop
    rcases transferB_signal hop with h | h <;> simp [h]
  | C =>
    rw [transfer, h] at hop
    simp [transferC_signal hop]

/-- Outside strategy A no operation of an UPDATE is on GSCLK. -/
theorem updateOps_signal_ne_gsclk {cfg : Config} {buf : Memory} {polls : Nat} (hs : cfg.strategy ≠ .A) {op : Op}
    (hop : op ∈ updateOps cfg buf polls) : op.signal ≠ .gsclk := by
  rcases mem_updateOps.mp hop with rfl | hop | hop | rfl
  · simp
  · exact transfer_signal_ne_gsclk hs hop
  · simp [pulse_signal hop]
  · simp

/-- The positions of UPDATE that issue an operation on GSCLK are those of a tick. -/
theorem posOp_signal_gsclk {cfg : Config} {buf : Memory} {p : Pos} (hi : inInit p = false)
    (h : (posOp cfg buf p).signal = .gsclk) : ∃ t e, p = .tick t e := by
  cases p with
  | init st => simp [inInit] at hi
  | tick t e => exact ⟨t, e, rfl⟩
  | bit k e => cases e <;> simp [posOp, Op.signal] at h
  | blankOff | blankOn => simp [posOp] at h
  | dataLow | wren | frame | poll | latchHigh | latchLow => simp [posOp, statusPoll, Op.signal] at h

theorem strategy_of_tick {cfg : Config} {buf : Memory} {t : Nat} {e : TickStep}
    (h : posAllowed cfg buf (.tick t e) = true) : cfg.strategy = .A := by
  cases e <;> simp only [posAllowed, Bool.and_eq_true, decide_eq_true_eq] at h
  case gsclkHigh | gsclkLow => exact h.1
  case data | sclkHigh | sclkLow => exact h.1.1

/-- Settles O32: by the operations of strategies B and C, and by the positions of UPDATE. -/
theorem greyscaleClockUntouched : Obligations.GreyscaleClockUntouched := by
  refine ⟨fun _ _ _ hs _ hop => updateOps_signal_ne_gsclk hs hop, fun cfg buf p hp hi h => ?_⟩
  obtain ⟨t, e, rfl⟩ := posOp_signal_gsclk hi h
  exact ⟨strategy_of_tick hp, t, e, rfl⟩

end Sys2Proof.Machine
end

section
/-! PROOFS. The run of an UPDATE: to its end (R100), to its first error (R111, R123), again after one (R112), and the idle
state it leaves (R115). A run is one of the chain of positions (`run_chain_completes`, `run_chain_fails`). -/

namespace Sys2Proof.Machine

/-! The acceptance of UPDATE. -/

/-- The state in which the first operation of UPDATE is outstanding: the word is taken. -/
def updateStarted (s : State) : State := startAt .blankOff (takeWord s)

theorem exec_update_ready {s : State} (hp : s.phase = .ready) : exec .update s = .next (updateStarted s) :=
  exec_ready hp .update

@[simp] theorem updateStarted_lvl (s : State) : (updateStarted s).lvl = s.lvl := rfl

/-! Only INIT starts the generator or opens the bus (R32). -/

theorem genOnAfter_updateOps {cfg : Config} {buf : Memory} {polls : Nat} {op : Op}
    (hop : op ∈ updateOps cfg buf polls) (ok g : Bool) : genOnAfter op ok g = g := by
  obtain ⟨p, hp, rfl⟩ := updateOps_posOp hop
  exact genOnAfter_posOp cfg buf hp ok g

theorem busOpenAfter_updateOps {cfg : Config} {buf : Memory} {polls : Nat} {op : Op}
    (hop : op ∈ updateOps cfg buf polls) (ok b : Bool) : busOpenAfter op ok b = b := by
  obtain ⟨p, hp, rfl⟩ := updateOps_posOp hop
  exact busOpenAfter_posOp cfg buf hp ok b

/-- Operations of UPDATE leave the generator and the bus alone. -/
theorem afterOps_resources {cfg : Config} {buf : Memory} {polls : Nat} {ops : List Op}
    (hops : ∀ op ∈ ops, op ∈ updateOps cfg buf polls) (as : List Answer) (rest : Env) (s : State) :
    (afterOps ops as rest s).genOn = s.genOn ∧ (afterOps ops as rest s).busOpen = s.busOpen := by
  simp only [afterOps]
  constructor
  · exact List.foldlRecOn (motive := (· = s.genOn)) ops _ rfl
      fun g hg op hop => (genOnAfter_updateOps (hops op hop) true g).trans hg
  · exact List.foldlRecOn (motive := (· = s.busOpen)) ops _ rfl
      fun b hb op hop => (busOpenAfter_updateOps (hops op hop) true b).trans hb

/-! UPDATE runs to its end. -/

/-- UPDATE with every operation answered so that it goes on issues its operations and completes (R100). -/
theorem update_completes {s : State} {polls : Nat} {as : List Answer} {rest : Env} (hr : s.resetLine = false)
    (hpoll : polled s.cfg = true → 1 ≤ polls)
    (ht : takeAnswers (updateOps s.cfg s.buf polls).length s.env = some (as, rest))
    (hfit : answersFit s.cfg polls as) :
    runSteps (updateOps s.cfg s.buf polls).length (updateStarted s) =
      .next (complete 0 (afterOps (updateOps s.cfg s.buf polls) as rest (updateStarted s))) := by
  rw [← updatePositions_length] at ht ⊢
  rw [← updatePositions_ops]
  exact run_chain_completes (updatePositions_chain s.cfg s.buf polls hpoll) rfl rfl rfl hr rfl (List.cons_ne_nil _ _) ht
    (answersFit_good hfit)

/-- Settles O23: by `update_completes`. -/
theorem updateRunsItsOperations : Obligations.UpdateRunsItsOperations := by
  intro s polls as rest hp hr hpoll ht hfit
  obtain ⟨hgen, hbus⟩ := afterOps_resources (fun _ => id : ∀ op ∈ updateOps s.cfg s.buf polls, _) as rest
    (updateStarted s)
  refine ⟨_, _, exec_update_ready hp, rfl, update_completes hr hpoll ht hfit, ?_, rfl, congrArg some okWord_zero, ?_,
    rfl, rfl, rfl, hgen, hbus, rfl, rfl, rfl, hr⟩
  · exact afterOps_trace _ as rest (updateStarted s)
  · exact responses_of_responsesRev_cons (congrArg (· :: s.responsesRev) okWord_zero)

/-! UPDATE ends at its first error. -/

/-- UPDATE with the operation after `as` answered Err ends there with an I/O error (R111, R123). -/
theorem update_fails {s : State} {polls : Nat} {op : Op} {as : List Answer} {rest : Env} (hr : s.resetLine = false)
    (hpoll : polled s.cfg = true → 1 ≤ polls) (hop : (updateOps s.cfg s.buf polls)[as.length]? = some op)
    (ht : takeAnswers (as.length + 1) s.env = some (as ++ [.err], rest)) (hfit : answersFit s.cfg polls as) :
    runSteps (as.length + 1) (updateStarted s) =
      .next (raiseIoError false op.signal
        (observe op .err (afterOps ((updateOps s.cfg s.buf polls).take as.length) as rest (updateStarted s)))) := by
  rw [← updatePositions_ops, List.getElem?_map, Option.map_eq_some_iff] at hop
  obtain ⟨p, hp, rfl⟩ := hop
  obtain ⟨mid, hrun⟩ := run_chain_fails (s := updateStarted s) (updatePositions_chain s.cfg s.buf polls hpoll) rfl rfl rfl
    hr rfl hp ht (answersFit_good hfit)
  rw [hrun, ← updatePositions_ops, ← List.map_take, transact, updatePositions_notInit (List.mem_of_getElem? hp)]
  rfl

/-- Settles O25: by `update_fails`; the operations before the error and the failed one are operations of UPDATE. -/
theorem updateStopsAtFirstError : Obligations.UpdateStopsAtFirstError := by
  intro s polls j op as rest hp hr hpoll hop ht hfit
  obtain rfl : as.length = j := by simpa using takeAnswers_length ht
  obtain ⟨hgen, hbus⟩ := afterOps_resources (fun _ => List.mem_of_mem_take) as rest (updateStarted s)
    (ops := (updateOps s.cfg s.buf polls).take as.length)
  have hmem := List.mem_of_getElem? hop
  refine ⟨_, _, exec_update_ready hp, update_fails hr hpoll hop ht hfit, ?_, rfl, congrArg some (ioErrorWord_eq op.signal),
    ?_, rfl, rfl, rfl, (genOnAfter_updateOps hmem false _).trans hgen, (busOpenAfter_updateOps hmem false _).trans hbus,
    fun _ => levelsAfter_err_unknown _, rfl, rfl, rfl, hr⟩
  · refine (observe_trace op .err _).trans ?_
    rw [afterOps_trace]
    rfl
  · exact responses_of_responsesRev_cons (congrArg (· :: s.responsesRev) (ioErrorWord_eq op.signal))

/-- Settles O26: the state a failed UPDATE ends in is READY, with the same configuration and buffer, so that
`updateRunsItsOperations` holds of it. -/
theorem retriedUpdateCompletes : Obligations.RetriedUpdateCompletes := by
  intro s polls j polls' op as as' mid rest hp hr hpoll hop ht hfit ht' hfit'
  obtain ⟨t, u, hst, htu, -, hready, -, -, hbuf, -, -, -, -, -, hcfg, -, henv, hreset⟩ :=
    updateStopsAtFirstError s polls j op as mid hp hr (fun h => (hpoll h).1) hop ht hfit
  rw [← hcfg, ← hbuf, ← henv] at ht'
  rw [← hcfg] at hpoll hfit'
  obtain ⟨v, w, huv, -, hvw, htrace, hdone, hresp, -, hbuf', -⟩ :=
    updateRunsItsOperations u polls' as' rest hready hreset (fun h => (hpoll h).2) ht' hfit'
  rw [hcfg, hbuf] at hvw htrace
  exact ⟨t, u, v, w, hst, htu, huv, hvw, htrace, hdone, hresp, hbuf'.trans hbuf⟩

/-! The level that a list of operations leaves: the last operation on the output says it (R28). -/

/-- The levels after operations that were answered Ok. -/
def levelsAfterOps (ops : List Op) (v : Levels) : Levels := ops.foldl (fun v op => levelsAfter op true v) v

theorem afterOps_lvl (ops : List Op) (as : List Answer) (rest : Env) (s : State) :
    (afterOps ops as rest s).lvl = levelsAfterOps ops s.lvl := rfl

theorem levelsAfter_get_of_signal_ne {op : Op} {sig : Signal} (h : op.signal ≠ sig) (ok : Bool) (v : Levels) :
    (levelsAfter op ok v).get sig = v.get sig :=
  levelsAfter_other op ok v sig (fun _ e => h (by rw [e, Op.signal])) (fun _ e => h (by rw [e, Op.signal]))

theorem levelsAfterOps_get_untouched {ops : List Op} {sig : Signal} (h : ∀ op ∈ ops, op.signal ≠ sig) (v : Levels) :
    (levelsAfterOps ops v).get sig = v.get sig :=
  List.foldlRecOn (motive := fun w : Levels => w.get sig = v.get sig) ops _ rfl
    fun w hw op hop => (levelsAfter_get_of_signal_ne (h op hop) true w).trans hw

/-- The last of the operations that is on the output drives it to the level. -/
def LeavesLevel (ops : List Op) (sig : Signal) (l : Level) : Prop :=
  ∃ pre op post, ops = pre ++ op :: post ∧ (∀ v, (levelsAfter op true v).get sig = .driven l) ∧
    ∀ o ∈ post, o.signal ≠ sig

theorem LeavesLevel.get {ops : List Op} {sig : Signal} {l : Level} (h : LeavesLevel ops sig l) (v : Levels) :
    (levelsAfterOps ops v).get sig = .driven l := by
  obtain ⟨pre, op, post, rfl, hop, hpost⟩ := h
  rw [levelsAfterOps, List.foldl_append, List.foldl_cons]
  exact (levelsAfterOps_get_untouched hpost _).trans (hop _)

theorem LeavesLevel.after {ops : List Op} {sig : Signal} {l : Level} (h : LeavesLevel ops sig l) (before : List Op) :
    LeavesLevel (before ++ ops) sig l := by
  obtain ⟨pre, op, post, rfl, hop, hpost⟩ := h
  exact ⟨before ++ pre, op, post, (List.append_assoc ..).symm, hop, hpost⟩

theorem LeavesLevel.before {ops later : List Op} {sig : Signal} {l : Level} (h : LeavesLevel ops sig l)
    (hlater : ∀ o ∈ later, o.signal ≠ sig) : LeavesLevel (ops ++ later) sig l := by
  obtain ⟨pre, op, post, rfl, hop, hpost⟩ := h
  refine ⟨pre, op, post ++ later, by simp, hop, fun o ho => ?_⟩
  exact (List.mem_append.mp ho).elim (hpost o) (hlater o)

theorem leavesLevel_pinSet {sig : Signal} (l : Level) (hsig : sig ≠ .bus) : LeavesLevel [.pinSet sig l] sig l :=
  ⟨[], _, [], rfl, fun v => levels_get_set_same v sig _ hsig, by simp⟩

theorem leavesLevel_pulse {sig : Signal} (hsig : sig ≠ .bus) : LeavesLevel (pulse sig) sig .low :=
  (leavesLevel_pinSet .low hsig).after [.pinSet sig .high]

theorem leavesLevel_blankSet (cfg : Config) (l : Level) : LeavesLevel [blankSet cfg l] .blank l :=
  ⟨[], _, [], rfl, fun v => by rw [levelsAfter_blankSet]; rfl, by simp⟩

theorem leavesLevel_flatMap_range {f : Nat → List Op} {sig : Signal} {l : Level} {k : Nat} (hk : 0 < k)
    (h : LeavesLevel (f (k - 1)) sig l) : LeavesLevel ((List.range k).flatMap f) sig l := by
  obtain ⟨m, rfl⟩ : ∃ m, k = m + 1 := ⟨k - 1, by omega⟩
  rw [List.range_succ, List.flatMap_append, List.flatMap_singleton]
  exact h.after _

/-! The outputs after the transfer (R103, R105, R106). -/

theorem leavesLevel_bitOps_sclk (n : Nat) (buf : Memory) (k : Nat) : LeavesLevel (bitOps n buf k) .sclk .low :=
  (leavesLevel_pulse (by decide)).after [_]

theorem leavesLevel_transferB_data (n : Nat) (buf : Memory) : LeavesLevel (transferB n buf) .data .low :=
  (leavesLevel_pinSet .low (by decide)).after _

theorem leavesLevel_transferB_sclk {n : Nat} (buf : Memory) (hn : 1 ≤ n) : LeavesLevel (transferB n buf) .sclk .low :=
  (leavesLevel_flatMap_range (by simp only [nbits]; omega) (leavesLevel_bitOps_sclk n buf _)).before
    (by simp [Op.signal])

theorem leavesLevel_tickOps_gsclk (n : Nat) (buf : Memory) (t : Nat) : LeavesLevel (tickOps n buf t) .gsclk .low := by
  have hpulse : LeavesLevel (pulse .gsclk) .gsclk .low := leavesLevel_pulse (by decide)
  rcases Nat.lt_trichotomy t (12 * n) with ht | rfl | ht
  · rw [tickOps_lt buf ht]; exact hpulse.after (_ :: pulse .sclk)
  · rw [tickOps_eq]; exact hpulse.after [_]
  · rw [tickOps_gt buf ht]; exact hpulse

theorem leavesLevel_transferA_gsclk (n : Nat) (buf : Memory) : LeavesLevel (transferA n buf) .gsclk .low := by
  rw [transferA]
  exact leavesLevel_flatMap_range (by decide) (leavesLevel_tickOps_gsclk n buf _)

theorem signal_of_later_ticks {n k : Nat} {buf : Memory} {op : Op}
    (hop : op ∈ (List.range' (12 * n + 1) k).flatMap (tickOps n buf)) : op.signal = .gsclk := by
  obtain ⟨t, ht, hop⟩ := List.mem_flatMap.mp hop
  rw [tickOps_gt buf (List.mem_range'_1.mp ht).1] at hop
  exact pulse_signal hop

theorem signal_of_tick_eq {n : Nat} {buf : Memory} {op : Op} (hop : op ∈ tickOps n buf (12 * n)) :
    op.signal = .data ∨ op.signal = .gsclk := by
  rw [tickOps_eq, List.mem_cons] at hop
  rcases hop with rfl | hop
  · exact .inl rfl
  · exact .inr (pulse_signal hop)

/-- DATA is low after tick 12N, and no later tick drives it. -/
theorem leavesLevel_transferA_data {n : Nat} (buf : Memory) (h : 12 * n < 4096) :
    LeavesLevel (transferA n buf) .data .low := by
  have htick : LeavesLevel (tickOps n buf (12 * n)) .data .low := by
    rw [tickOps_eq]
    exact (leavesLevel_pinSet .low (by decide)).before fun o ho => by simp [pulse_signal ho]
  rw [transferA_split h]
  exact (htick.before fun o ho => by simp [signal_of_later_ticks ho]).after _

/-- SCLK is low after the last tick that shifts, and no later tick drives it. -/
theorem leavesLevel_transferA_sclk {n : Nat} (buf : Memory) (hn : 1 ≤ n) (h : 12 * n < 4096) :
    LeavesLevel (transferA n buf) .sclk .low := by
  have hlast : LeavesLevel (tickOps n buf (12 * n - 1)) .sclk .low := by
    rw [tickOps_lt buf (by omega)]
    exact ((leavesLevel_pulse (by decide)).before fun o ho => by simp [pulse_signal ho]).after [_]
  rw [transferA_split h, ← List.range_eq_range']
  refine (leavesLevel_flatMap_range (by omega) hlast).before fun o ho => ?_
  rcases List.mem_append.mp ho with ho | ho
  · rcases signal_of_tick_eq ho with h | h <;> simp [h]
  · simp [signal_of_later_ticks ho]

/-! The outputs after an UPDATE (R115). -/

section
variable {cfg : Config} (buf : Memory) (polls : Nat)

theorem leavesLevel_updateOps_blank : LeavesLevel (updateOps cfg buf polls) .blank (onLevel cfg) :=
  (((leavesLevel_blankSet cfg _).after (pulse .latch)).after (transfer cfg buf polls)).after [_]

theorem leavesLevel_updateOps_latch : LeavesLevel (updateOps cfg buf polls) .latch .low :=
  (((leavesLevel_pulse (by decide)).before (by simp)).after (transfer cfg buf polls)).after [_]

/-- An output but LATCH and BLANK is left as the transfer leaves it. -/
theorem LeavesLevel.of_transfer {buf polls} {sig : Signal} {l : Level} (h : LeavesLevel (transfer cfg buf polls) sig l)
    (hl : sig ≠ .latch) (hb : sig ≠ .blank) : LeavesLevel (updateOps cfg buf polls) sig l :=
  (h.before fun o ho => (List.mem_append.mp ho).elim (fun ho => pulse_signal ho ▸ hl.symm)
    fun ho => by rw [List.mem_singleton.mp ho, blankSet_signal]; exact hb.symm).after [_]

theorem leavesLevel_updateOps_A (hv : configValid cfg = true) (hs : cfg.strategy = .A) :
    LeavesLevel (updateOps cfg buf polls) .data .low ∧ LeavesLevel (updateOps cfg buf polls) .sclk .low ∧
      LeavesLevel (updateOps cfg buf polls) .gsclk .low := by
  obtain ⟨⟨hn, -⟩, -⟩ := (configurationChecksOfInit cfg).mp hv
  have ht : transfer cfg buf polls = transferA cfg.n buf := by rw [transfer, hs]
  have hlt := bits_lt_ticks hv hs
  exact ⟨.of_transfer (ht ▸ leavesLevel_transferA_data buf hlt) (by decide) (by decide),
    .of_transfer (ht ▸ leavesLevel_transferA_sclk buf hn hlt) (by decide) (by decide),
    .of_transfer (ht ▸ leavesLevel_transferA_gsclk cfg.n buf) (by decide) (by decide)⟩

theorem leavesLevel_updateOps_B (hv : configValid cfg = true) (hs : cfg.strategy = .B) :
    LeavesLevel (updateOps cfg buf polls) .data .low ∧ LeavesLevel (updateOps cfg buf polls) .sclk .low := by
  obtain ⟨⟨hn, -⟩, -⟩ := (configurationChecksOfInit cfg).mp hv
  have ht : transfer cfg buf polls = transferB cfg.n buf := by rw [transfer, hs]
  exact ⟨.of_transfer (ht ▸ leavesLevel_transferB_data cfg.n buf) (by decide) (by decide),
    .of_transfer (ht ▸ leavesLevel_transferB_sclk buf hn) (by decide) (by decide)⟩

/-- In strategy C only LATCH, BLANK and the bus are used. -/
theorem updateOps_C_signal {buf polls} (hs : cfg.strategy = .C) {op : Op} (hop : op ∈ updateOps cfg buf polls) :
    op.signal = .blank ∨ op.signal = .latch ∨ op.signal = .bus := by
  rcases mem_updateOps.mp hop with rfl | hop | hop | rfl
  · exact .inl (blankSet_signal ..)
  · rw [transfer, hs] at hop
    exact .inr (.inr (transferC_signal hop))
  · exact .inr (.inl (pulse_signal hop))
  · exact .inl (blankSet_signal ..)

theorem updateOps_C_keeps {sig : Signal} (hs : cfg.strategy = .C) (hsig : sig = .data ∨ sig = .sclk) (v : Levels) :
    (levelsAfterOps (updateOps cfg buf polls) v).get sig = v.get sig :=
  levelsAfterOps_get_untouched (fun op hop => by
    rcases hsig with rfl | rfl <;> rcases updateOps_C_signal hs hop with h | h | h <;> simp [h]) v

end

/-- Settles O24: UPDATE ends as `update_completes` says, and the last operation on each output is known for each
strategy. -/
theorem updateLeavesOutputsIdle : Obligations.UpdateLeavesOutputsIdle := by
  intro s t u polls as rest hp hr hv hpoll ht hfit he hu
  obtain rfl : updateStarted s = t := by simpa [exec_update_ready hp] using he
  obtain rfl : complete 0 (afterOps (updateOps s.cfg s.buf polls) as rest (updateStarted s)) = u := by
    simpa [update_completes hr hpoll ht hfit] using hu
  simp only [complete_lvl, afterOps_lvl, updateStarted_lvl]
  refine ⟨(leavesLevel_updateOps_blank s.buf polls).get s.lvl, (leavesLevel_updateOps_latch s.buf polls).get s.lvl,
    ?_, fun hs => ?_, fun hs => ?_, fun hs => ?_⟩
  · rintro (hs | hs)
    · obtain ⟨hdata, hsclk, -⟩ := leavesLevel_updateOps_A s.buf polls hv hs
      exact ⟨hdata.get s.lvl, hsclk.get s.lvl⟩
    · obtain ⟨hdata, hsclk⟩ := leavesLevel_updateOps_B s.buf polls hv hs
      exact ⟨hdata.get s.lvl, hsclk.get s.lvl⟩
  · obtain ⟨-, -, hgsclk⟩ := leavesLevel_updateOps_A s.buf polls hv hs
    exact hgsclk.get s.lvl
  · exact ⟨updateOps_C_keeps s.buf polls hs (.inl rfl) s.lvl, updateOps_C_keeps s.buf polls hs (.inr rfl) s.lvl⟩
  · exact levelsAfterOps_get_untouched (sig := .gsclk) (fun _ hop => updateOps_signal_ne_gsclk hs hop) s.lvl

end Sys2Proof.Machine
end

section
/-! PROOFS. What is held while an UPDATE runs: BLANK at OFF (R101, R110, R150), and DATA at the stream bit while SCLK is
pulsed for it (R103 to R105). Both follow from where the sequencer can have come from (`step_seq_cases`). -/

namespace Sys2Proof.Machine

/-! Where a position comes from. -/

/-- The acceptance of a word leaves no position, or the first one of INIT or of UPDATE. -/
theorem acceptWord_seq {s t : State} {w : Word} {q : Pos} (hb : s.phase ≠ .busy) (ha : acceptWord w s = .next t)
    (hq : t.seq = some q) : inInit q = true ∨ q = .blankOff := by
  rcases acceptWord_cases hb ha with ⟨-, rfl⟩ | ⟨-, -, rfl⟩ | ⟨-, -, rfl⟩ | ⟨i, -, -, rfl⟩
  · simp at hq
  · simp at hq
  · simp at hq
  · rcases runOf_cases i (takeWord s) with ⟨-, -, e⟩ | ⟨-, -, e⟩ | ⟨-, e⟩ | ⟨idx, -, -, e⟩ | ⟨d, m, -, e⟩ <;>
      rw [e] at hq
    · obtain rfl := Option.some.inj hq
      exact .inl rfl
    · simp at hq
    · obtain rfl := Option.some.inj hq
      exact .inr rfl
    · simp at hq
    · simp at hq

/-- A position after a transaction is the one that follows, and the operation was answered Ok. -/
theorem transact_seq {p q : Pos} {a : Answer} {s : State} (hq : (transact p a s).seq = some q) :
    a.isOk = true ∧ nextPos s.cfg s.buf (statusByte a) p = some q := by
  rcases transact_cases p a s with ⟨rx0, rx1, q', rfl, hn, e⟩ | ⟨rx0, rx1, rfl, -, e⟩ | ⟨-, e⟩ <;> rw [e] at hq
  · obtain rfl := Option.some.inj hq
    exact ⟨rfl, hn⟩
  · simp at hq
  · simp at hq

/-- A position after a step: the state was held, or a command has been accepted, or the operation of the position before it
has been answered Ok. -/
theorem step_seq_cases {s t : State} {q : Pos} (h : step s = .next t) (hq : t.seq = some q) :
    t = s ∨ inInit q = true ∨ q = .blankOff ∨
      ∃ p rx, s.seq = some p ∧ nextPos s.cfg s.buf rx p = some q ∧ t.cfg = s.cfg ∧ t.buf = s.buf ∧
        t.lvl = levelsAfter (posOp s.cfg s.buf p) true s.lvl := by
  rcases step_cases h with ⟨-, rfl⟩ | ⟨-, -, p, hs, ⟨-, rfl⟩ | ⟨a, rest, -, rfl⟩⟩ | ⟨-, -, -, rfl⟩ |
    ⟨-, hb, w, ws, -, ha⟩
  · simp at hq
  · exact .inl rfl
  · obtain ⟨hok, hn⟩ := transact_seq hq
    obtain ⟨hcfg, hbuf, -⟩ := transact_frame p a { s with env := rest }
    exact .inr (.inr (.inr ⟨p, _, hs, hn, hcfg, hbuf, by rw [transact_lvl, hok]⟩))
  · exact .inl rfl
  · exact .inr ((acceptWord_seq hb ha hq).imp_right .inl)

/-! The blank line (R101, R110). -/

/-- Of UPDATE, only the first and the last operation are on BLANK. -/
theorem posOp_signal_ne_blank {cfg : Config} {buf : Memory} {p : Pos} (hi : inInit p = false) (hoff : p ≠ .blankOff)
    (hon : p ≠ .blankOn) : (posOp cfg buf p).signal ≠ .blank := by
  cases p with
  | init st => simp [inInit] at hi
  | blankOff => exact absurd rfl hoff
  | blankOn => exact absurd rfl hon
  | tick t e => cases e <;> simp [posOp, Op.signal]
  | bit k e => cases e <;> simp [posOp, Op.signal]
  | dataLow | wren | frame | poll | latchHigh | latchLow => simp [posOp, statusPoll, Op.signal]

/-- A position of UPDATE comes from one of UPDATE. -/
theorem notInit_of_nextPos {cfg : Config} {buf : Memory} {rx : Byte} {p q : Pos} (hq : inInit q = false)
    (hn : nextPos cfg buf rx p = some q) : inInit p = false := by
  cases p with
  | init st =>
    obtain ⟨st', rfl⟩ := nextPos_init hn
    simp [inInit] at hq
  | _ => rfl

/-- Settles O52: the first operation of UPDATE drives BLANK to OFF, and none before the last is on BLANK. -/
theorem blankIsHeldOffDuringTransfer : Obligations.BlankIsHeldOffDuringTransfer := by
  intro s t hs h q hq hinit hoff
  rcases step_seq_cases h hq with rfl | hinit' | hoff' | ⟨p, rx, hp, hn, hcfg, -, hlvl⟩
  · exact hs q hq hinit hoff
  · simp [hinit] at hinit'
  · exact absurd hoff' hoff
  · rw [hlvl, hcfg]
    by_cases hpoff : p = .blankOff
    · rw [hpoff, posOp, levelsAfter_blankSet]
    · have hpinit := notInit_of_nextPos hinit hn
      have hpon : p ≠ .blankOn := by rintro rfl; simp [nextPos] at hn
      exact (levelsAfter_get_of_signal_ne (posOp_signal_ne_blank hpinit hpoff hpon) true s.lvl).trans
        (hs p hp hpinit hpoff)

/-! The data line (R103, R105). -/

/-- The stream bit for which SCLK is being pulsed at a position. -/
def shiftedBit : Pos → Option Nat
  | .tick t .sclkHigh | .tick t .sclkLow => some t
  | .bit k .sclkHigh | .bit k .sclkLow => some k
  | _ => none

theorem dataHeld_iff (s : State) : dataHeld s ↔ ∀ p k, s.seq = some p → shiftedBit p = some k →
    s.lvl.data = .driven (Level.ofBit (streamBit s.cfg.n s.buf k)) := by
  constructor
  · rintro ⟨htick, hbit⟩ p k hp hk
    cases p with
    | tick t e =>
      cases e with
      | sclkHigh => exact Option.some.inj hk ▸ htick t (.inl hp)
      | sclkLow => exact Option.some.inj hk ▸ htick t (.inr hp)
      | _ => simp [shiftedBit] at hk
    | bit t e =>
      cases e with
      | sclkHigh => exact Option.some.inj hk ▸ hbit t (.inl hp)
      | sclkLow => exact Option.some.inj hk ▸ hbit t (.inr hp)
      | data => simp [shiftedBit] at hk
    | _ => simp [shiftedBit] at hk
  · exact fun h => ⟨fun t ht => ht.elim (h _ t · rfl) (h _ t · rfl), fun k hk => hk.elim (h _ k · rfl) (h _ k · rfl)⟩

theorem shiftedBit_init {q : Pos} (h : inInit q = true) : shiftedBit q = none := by
  obtain ⟨st, rfl⟩ := eq_init_of_inInit h
  rfl

@[simp] theorem shiftedBit_tickStart (n t : Nat) : shiftedBit (tickStart n t) = none := by
  unfold tickStart; split <;> rfl

@[simp] theorem shiftedBit_bitStart (n k : Nat) : shiftedBit (bitStart n k) = none := by
  unfold bitStart; split <;> rfl

@[simp] theorem shiftedBit_transferStart (cfg : Config) (buf : Memory) : shiftedBit (transferStart cfg buf) = none := by
  unfold transferStart
  cases cfg.strategy with
  | A => exact shiftedBit_tickStart cfg.n 0
  | B => exact shiftedBit_bitStart cfg.n 0
  | C => cases cfg.framing <;> rfl

/-- Before SCLK is pulsed for a stream bit DATA is driven to it, and between the halves of the pulse DATA is left alone. -/
theorem posOp_before_shiftedBit {cfg : Config} {buf : Memory} {rx : Byte} {p q : Pos} {k : Nat}
    (hn : nextPos cfg buf rx p = some q) (hk : shiftedBit q = some k) :
    posOp cfg buf p = .pinSet .data (Level.ofBit (streamBit cfg.n buf k)) ∨
      (shiftedBit p = some k ∧ (posOp cfg buf p).signal ≠ .data) := by
  cases p with
  | tick t e =>
    cases e with
    | data =>
      by_cases ht : t < nbits cfg.n <;> simp only [nextPos, ht, if_true, if_false, Option.some.injEq] at hn <;> subst hn
      · obtain rfl := Option.some.inj hk
        simp [posOp, ht]
      · simp [shiftedBit] at hk
    | sclkHigh =>
      obtain rfl := Option.some.inj hn
      exact .inr ⟨hk, by simp [posOp, Op.signal]⟩
    | sclkLow | gsclkHigh => obtain rfl := Option.some.inj hn; simp [shiftedBit] at hk
    | gsclkLow =>
      obtain rfl := Option.some.inj hn
      split at hk
      · simp at hk
      · simp [shiftedBit] at hk
  | bit t e =>
    cases e with
    | data =>
      obtain rfl := Option.some.inj hn
      obtain rfl := Option.some.inj hk
      exact .inl rfl
    | sclkHigh =>
      obtain rfl := Option.some.inj hn
      exact .inr ⟨hk, by simp [posOp, Op.signal]⟩
    | sclkLow => obtain rfl := Option.some.inj hn; simp at hk
  | init st =>
    obtain ⟨st', rfl⟩ := nextPos_init hn
    simp [shiftedBit] at hk
  | blankOff => obtain rfl := Option.some.inj hn; simp at hk
  | frame | poll =>
    obtain rfl := Option.some.inj hn
    split at hk <;> simp [shiftedBit] at hk
  | dataLow | wren | latchHigh | latchLow => obtain rfl := Option.some.inj hn; simp [shiftedBit] at hk
  | blankOn => simp [nextPos] at hn

/-- Settles O53: by `posOp_before_shiftedBit`. -/
theorem dataIsHeldDuringShiftPulse : Obligations.DataIsHeldDuringShiftPulse := by
  intro s t hs h
  rw [dataHeld_iff] at hs ⊢
  intro q k hq hk
  rcases step_seq_cases h hq with rfl | hinit | rfl | ⟨p, rx, hp, hn, hcfg, hbuf, hlvl⟩
  · exact hs q k hq hk
  · simp [shiftedBit_init hinit] at hk
  · simp [shiftedBit] at hk
  · rw [hlvl, hcfg, hbuf]
    rcases posOp_before_shiftedBit hn hk with hop | ⟨hpk, hsig⟩
    · rw [hop]; rfl
    · exact (levelsAfter_get_of_signal_ne hsig true s.lvl).trans (hs p k hp hpk)

end Sys2Proof.Machine
end

section
/-! PROOFS. The receiver model (R52, R116): what its shift register holds after the transfer of each strategy, whatever it
held before, and the greyscale registers after the latch pulse. -/

namespace Sys2Proof.Machine

/-! A list of operations, and the operations that leave the shift register alone. -/

section
variable (n : Nat) (seen : Bool)

theorem onOps_cons (r : Receiver) (op : Op) (ops : List Op) :
    r.onOps n seen (op :: ops) = (r.onOp n seen op).onOps n seen ops := rfl

theorem onOps_append (r : Receiver) (ops ops' : List Op) :
    r.onOps n seen (ops ++ ops') = (r.onOps n seen ops).onOps n seen ops' := List.foldl_append

theorem onOp_blankSet (r : Receiver) (cfg : Config) (l : Level) : r.onOp n seen (blankSet cfg l) = r := by
  rcases blankSet_cases cfg l with ⟨-, h⟩ | ⟨-, h⟩ <;> rw [h] <;> rfl

/-- Only SCLK and the bus shift. -/
theorem onOp_sr_of_signal_ne (r : Receiver) {op : Op} (hsclk : op.signal ≠ .sclk) (hbus : op.signal ≠ .bus) :
    (r.onOp n seen op).sr = r.sr := by
  cases op with
  | pinSet sig l =>
    cases sig with
    | sclk => exact absurd rfl hsclk
    | _ => cases l <;> rfl
  | genStart | genDuty => rfl
  | busOpen | busWrite | busTransfer => exact absurd rfl hbus

theorem onOps_sr_untouched (r : Receiver) {ops : List Op} (h : ∀ op ∈ ops, op.signal ≠ .sclk ∧ op.signal ≠ .bus) :
    (r.onOps n seen ops).sr = r.sr :=
  List.foldlRecOn (motive := fun r' : Receiver => r'.sr = r.sr) ops _ rfl
    fun r' hr' op hop => (onOp_sr_of_signal_ne n seen r' (h op hop).1 (h op hop).2).trans hr'

/-- After the transfer UPDATE only latches. -/
theorem onOps_updateOps (r : Receiver) (cfg : Config) (buf : Memory) (polls : Nat) :
    r.onOps n seen (updateOps cfg buf polls) = (r.onOps n seen (transfer cfg buf polls)).latchIn n := by
  rw [updateOps, onOps_cons, onOp_blankSet, onOps_append, onOps_append]
  exact onOp_blankSet n seen _ cfg (onLevel cfg)

/-! The shift register after data bits. -/

theorem shiftIn_sr_congr {r r' : Receiver} (h : r.sr = r'.sr) (d : Bool) : (r.shiftIn n d).sr = (r'.shiftIn n d).sr := by
  rw [Receiver.shiftIn, Receiver.shiftIn, h]

theorem shiftIn_foldl_sr_congr (bs : List Bool) {r r' : Receiver} (h : r.sr = r'.sr) :
    (bs.foldl (Receiver.shiftIn n) r).sr = (bs.foldl (Receiver.shiftIn n) r').sr := by
  induction bs generalizing r r' with
  | nil => exact h
  | cons b bs ih => exact ih (shiftIn_sr_congr n h b)

/-- Groups of operations that each shift one bit shift the bits in order. -/
theorem onOps_flatMap_sr {f : Nat → List Op} {bit : Nat → Bool} {ts : List Nat} (r : Receiver)
    (hf : ∀ t ∈ ts, ∀ r : Receiver, (r.onOps n seen (f t)).sr = (r.shiftIn n (bit t)).sr) :
    (r.onOps n seen (ts.flatMap f)).sr = ((ts.map bit).foldl (Receiver.shiftIn n) r).sr := by
  induction ts generalizing r with
  | nil => rfl
  | cons t ts ih =>
    rw [List.flatMap_cons, onOps_append, ih _ fun t' ht' => hf t' (List.mem_cons_of_mem t ht')]
    exact shiftIn_foldl_sr_congr n _ (hf t (List.mem_cons_self ..) r)

/-- A bit driven on DATA and then an SCLK pulse shift that bit (R52, R103, R105). -/
theorem onOps_bitOps_sr (r : Receiver) (buf : Memory) (k : Nat) :
    (r.onOps n seen (bitOps n buf k)).sr = (r.shiftIn n (streamBit n buf k)).sr := by
  simp only [bitOps]
  cases streamBit n buf k <;> rfl

theorem onOps_pulse_gsclk (r : Receiver) : r.onOps n seen (pulse .gsclk) = r := rfl

theorem onOps_tickOps_sr (r : Receiver) (buf : Memory) {t : Nat} (ht : t < 12 * n) :
    (r.onOps n seen (tickOps n buf t)).sr = (r.shiftIn n (streamBit n buf t)).sr := by
  have hops : tickOps n buf t = bitOps n buf t ++ pulse .gsclk := tickOps_lt buf ht
  rw [hops, onOps_append, onOps_pulse_gsclk, onOps_bitOps_sr]

/-- At least as many bits as the register is long displace all it held. -/
theorem shiftIn_foldl_sr_of_full {bs : List Bool} (r : Receiver) (hpos : 0 < bs.length) (hfull : 12 * n ≤ bs.length) :
    (bs.foldl (Receiver.shiftIn n) r).sr = bs.reverse.take (12 * n) := by
  rw [shiftIn_foldl_sr n bs r hpos]
  exact List.take_append_of_le_length (by simpa [nbits] using hfull)

/-- The stream fills the register, its last bit in front. -/
theorem shiftIn_foldl_stream_sr (r : Receiver) (buf : Memory) (hn : 1 ≤ n) :
    ((stream n buf).foldl (Receiver.shiftIn n) r).sr = (stream n buf).reverse := by
  rw [shiftIn_foldl_sr_of_full n r (by rw [stream_length]; omega) (stream_length n buf).ge]
  exact List.take_of_length_le (by simp)

/-- Bits shifted in displace what the register held by their number. -/
theorem shiftIn_foldl_sr_displaced (bs : List Bool) (r : Receiver) {j : Nat} (h : bs.length + j < 12 * n) :
    (bs.foldl (Receiver.shiftIn n) r).sr[bs.length + j]? = r.sr[j]? := by
  cases bs with
  | nil => simp
  | cons b bs =>
    rw [shiftIn_foldl_sr n (b :: bs) r (Nat.succ_pos _), List.getElem?_take_of_lt (show _ < nbits n from h),
      List.getElem?_append_right (by simp)]
    simp

/-! The transfer of each strategy. -/

theorem onOps_transferA_sr (r : Receiver) (buf : Memory) (hn : 1 ≤ n) (h : 12 * n < 4096) :
    (r.onOps n seen (transferA n buf)).sr = (stream n buf).reverse := by
  have hlater : ∀ op ∈ tickOps n buf (12 * n) ++ (List.range' (12 * n + 1) (4095 - 12 * n)).flatMap (tickOps n buf),
      op.signal ≠ .sclk ∧ op.signal ≠ .bus := by
    intro op hop
    rcases List.mem_append.mp hop with hop | hop
    · rcases signal_of_tick_eq hop with h | h <;> simp [h]
    · simp [signal_of_later_ticks hop]
  rw [transferA_split h, onOps_append, onOps_sr_untouched n seen _ hlater, ← List.range_eq_range',
    onOps_flatMap_sr n seen r fun t ht r => onOps_tickOps_sr n seen r buf (List.mem_range.mp ht)]
  exact shiftIn_foldl_stream_sr n r buf hn

theorem onOps_transferB_sr (r : Receiver) (buf : Memory) (hn : 1 ≤ n) :
    (r.onOps n seen (transferB n buf)).sr = (stream n buf).reverse := by
  rw [transferB, onOps_append, onOps_sr_untouched n seen _ (by simp [Op.signal]),
    onOps_flatMap_sr n seen r fun t _ r => onOps_bitOps_sr n seen r buf t]
  exact shiftIn_foldl_stream_sr n r buf hn

/-- The frame fills the register with the stream and the padding after it (R46, R49). -/
theorem onOp_frame_sr (r : Receiver) (buf : Memory) (hn : 1 ≤ n) :
    (r.onOp n seen (.busWrite (pack n buf))).sr =
      (List.replicate (8 * nbytes n - 12 * n) false ++ (stream n buf).reverse).take (12 * n) := by
  show ((wireBits (pack n buf)).foldl (Receiver.shiftIn n) r).sr = _
  rw [wireBits_pack_eq, shiftIn_foldl_sr_of_full n r (by simp; omega) (by simp), List.reverse_append,
    List.reverse_replicate]

theorem onOp_frame_sr_even (r : Receiver) (buf : Memory) (hn : 1 ≤ n) (heven : n % 2 = 0) :
    (r.onOp n seen (.busWrite (pack n buf))).sr = (stream n buf).reverse := by
  have hpad : 8 * nbytes n - 12 * n = 0 := by have := nbytes_of_even heven; omega
  rw [onOp_frame_sr n seen r buf hn, hpad]
  exact List.take_of_length_le (by simp)

theorem onOp_frame_sr_odd (r : Receiver) (buf : Memory) (hn : 1 ≤ n) (hodd : n % 2 = 1) :
    (r.onOp n seen (.busWrite (pack n buf))).sr =
      (List.replicate 4 false ++ (stream n buf).reverse).take (12 * n) := by
  have hpad : 8 * nbytes n - 12 * n = 4 := by have := nbytes_of_odd hodd; omega
  rw [onOp_frame_sr n seen r buf hn, hpad]

/-! The status polls (R108). -/

theorem onOps_polls_unseen (r : Receiver) (cfg : Config) (polls : Nat) :
    r.onOps n false (List.replicate polls (statusPoll cfg)) = r := by
  induction polls with
  | zero => rfl
  | succ polls ih => exact ih

theorem onOp_statusPoll_seen (r : Receiver) (cfg : Config) {j : Nat} (h : 16 + j < 12 * n) :
    (r.onOp n true (statusPoll cfg)).sr[16 + j]? = r.sr[j]? :=
  shiftIn_foldl_sr_displaced n (wireBits [cfg.statusCmd, 0x00]) r h

/-- Every status exchange that the receiver sees displaces the register by 16 bits. -/
theorem onOps_polls_seen (r : Receiver) (cfg : Config) {polls j : Nat} (h : 16 * polls + j < 12 * n) :
    (r.onOps n true (List.replicate polls (statusPoll cfg))).sr[16 * polls + j]? = r.sr[j]? := by
  induction polls generalizing r j with
  | zero => simp [Receiver.onOps]
  | succ polls ih =>
    have hplace : 16 * (polls + 1) + j = 16 * polls + (16 + j) := by omega
    rw [hplace] at h ⊢
    rw [List.replicate_succ, onOps_cons, ih _ h, onOp_statusPoll_seen n r cfg (by omega)]

/-- In strategy C the frame is sent, after a write enable or not, and then the polls are issued, if any. -/
theorem transferC_cases (cfg : Config) (buf : Memory) (polls : Nat) :
    (cfg.framing = .none ∧ transferC cfg buf polls = [.busWrite (pack cfg.n buf)]) ∨
    (cfg.framing = .wrenPoll ∧ transferC cfg buf polls =
      .busWrite [cfg.wrenCmd] :: .busWrite (pack cfg.n buf) :: List.replicate polls (statusPoll cfg)) := by
  cases hf : cfg.framing with
  | none => exact .inl ⟨rfl, by rw [transferC, hf]⟩
  | wrenPoll => exact .inr ⟨rfl, by rw [transferC, hf]; rfl⟩

/-- A receiver that does not see the polls holds what the frame left, sent to it in some state. -/
theorem onOps_transferC_unseen (r : Receiver) (cfg : Config) (buf : Memory) (polls : Nat) : ∃ r' : Receiver,
    r.onOps n false (transferC cfg buf polls) = r'.onOp n false (.busWrite (pack cfg.n buf)) := by
  rcases transferC_cases cfg buf polls with ⟨-, h⟩ | ⟨-, h⟩
  · exact ⟨r, by rw [h]; rfl⟩
  · exact ⟨r.onOp n false (.busWrite [cfg.wrenCmd]), by rw [h, onOps_cons, onOps_cons, onOps_polls_unseen]⟩

end

/-! The greyscale registers (R52). -/

/-- The place of a channel's bit in the reversed stream. -/
theorem stream_reverse_getElem? {n c b : Nat} (buf : Memory) (hc : c < n) (hb : b < 12) :
    (stream n buf).reverse[12 * c + b]? = some ((buf.read c).getLsbD b) := by
  have hplace : 12 * n - 1 - (12 * c + b) = 12 * (n - 1 - c) + (11 - b) := by omega
  rw [List.getElem?_reverse (by rw [stream_length]; omega), stream_length, hplace,
    stream_getElem? buf (bitPlace_spec hc hb).1, streamBit_bitPlace buf hc hb]

/-- A register that holds the stream holds the low 12 bits of every channel. -/
theorem srEntry_stream {n c : Nat} (buf : Memory) (hc : c < n) :
    srEntry (stream n buf).reverse c = (buf.read c).toNat % 4096 := by
  have hbits : ∀ b ∈ List.range 12, ((stream n buf).reverse.getD (12 * c + b) false).toNat * 2 ^ b =
      ((buf.read c).toNat.testBit b).toNat * 2 ^ b := by
    intro b hb
    rw [List.getD_eq_getElem?_getD, stream_reverse_getElem? buf hc (List.mem_range.mp hb), Option.getD_some,
      BitVec.testBit_toNat]
  rw [srEntry, List.map_congr_left hbits]
  exact sum_low_bits (buf.read c).toNat 12

theorem latchIn_stream_gs {n : Nat} {buf : Memory} {r : Receiver} (h : r.sr = (stream n buf).reverse) :
    (r.latchIn n).gs = (List.range n).map (fun c => (buf.read c).toNat % 4096) := by
  rw [Receiver.latchIn, h]
  exact List.map_congr_left fun c hc => srEntry_stream buf (List.mem_range.mp hc)

/-! UPDATE under the receiver (R116). -/

/-- The transfers that leave the stream in the register of a receiver that sees no poll. -/
theorem onOps_transfer_sr {cfg : Config} (hv : configValid cfg = true) (buf : Memory) (polls : Nat) (r : Receiver)
    (h : cfg.strategy = .A ∨ cfg.strategy = .B ∨ (cfg.strategy = .C ∧ cfg.n % 2 = 0)) :
    (r.onOps cfg.n false (transfer cfg buf polls)).sr = (stream cfg.n buf).reverse := by
  obtain ⟨⟨hn, -⟩, -⟩ := (configurationChecksOfInit cfg).mp hv
  rcases h with hs | hs | ⟨hs, heven⟩ <;> rw [transfer, hs]
  · exact onOps_transferA_sr cfg.n false r buf hn (bits_lt_ticks hv hs)
  · exact onOps_transferB_sr cfg.n false r buf hn
  · obtain ⟨r', hr'⟩ := onOps_transferC_unseen cfg.n r cfg buf polls
    exact hr' ▸ onOp_frame_sr_even cfg.n false r' buf hn heven

/-- Settles O37: the latch copies what the transfer left in the shift register. -/
theorem updateDeliversTheBuffer : Obligations.UpdateDeliversTheBuffer := by
  intro cfg buf polls r hv
  obtain ⟨⟨hn, -⟩, -⟩ := (configurationChecksOfInit cfg).mp hv
  refine ⟨fun h => ?_, fun hs hodd => ?_, fun hs hf heven j hj => ?_⟩ <;> rw [onOps_updateOps]
  · exact latchIn_stream_gs (onOps_transfer_sr hv buf polls r h)
  · obtain ⟨r', hr'⟩ := onOps_transferC_unseen cfg.n r cfg buf polls
    rw [transfer, hs, hr']
    exact onOp_frame_sr_odd cfg.n false r' buf hn hodd
  · obtain ⟨-, h⟩ := (transferC_cases cfg buf polls).resolve_left fun h => by simp [hf] at h
    rw [transfer, hs, h, onOps_cons, onOps_cons]
    refine (onOps_polls_seen cfg.n _ cfg hj).trans ?_
    rw [onOp_frame_sr_even cfg.n true _ buf hn heven]

end Sys2Proof.Machine
end

section
/-! PROOFS. The abnormal outcomes and the idle engine: the status poll that goes on (R108, R125), INIT with an invalid
configuration (R80, R124), and no word offered (R136). The poll is a run along a chain of positions (`run_chain`). -/

namespace Sys2Proof.Machine

/-! The status poll. -/

/-- The `k` polls from poll `p` on (R108). -/
def pollsFrom (p k : Nat) : List Pos := (List.range' p k).map .poll

/-- A status byte that keeps the poll going, at whatever place it is read. -/
def keepsPolling (cfg : Config) (_ : Nat) (rx : Byte) : Prop := writeInProgress cfg rx = true

theorem pollsFrom_succ (p k : Nat) : pollsFrom p (k + 1) = .poll p :: pollsFrom (p + 1) k := rfl

theorem pollsFrom_getElem? {p k j : Nat} (h : j < k) : (pollsFrom p k)[j]? = some (.poll (p + j)) := by
  simp [pollsFrom, h]

/-- Every poll issues the status exchange. -/
theorem pollsFrom_ops (cfg : Config) (buf : Memory) (p k : Nat) :
    (pollsFrom p k).map (posOp cfg buf) = List.replicate k (statusPoll cfg) := by
  have hop : posOp cfg buf ∘ Pos.poll = Function.const Nat (statusPoll cfg) := rfl
  rw [pollsFrom, List.map_map, hop, List.map_const, List.length_range']

/-- While the status says "in progress" each poll leads to the next one. -/
theorem pollsFrom_chain (cfg : Config) (buf : Memory) (k : Nat) : ∀ p i,
    Chain cfg buf (keepsPolling cfg) (some (.poll (p + k))) i (pollsFrom p k) := by
  induction k with
  | zero => exact fun _ _ => trivial
  | succ k ih =>
    intro p i
    rw [pollsFrom_succ, ← Nat.add_assoc, Nat.add_right_comm]
    refine ⟨fun rx hrx => ?_, ih (p + 1) (i + 1)⟩
    have hnext : nextPos cfg buf rx (.poll p) = some (.poll (p + 1)) := congrArg some (if_pos hrx)
    rw [hnext]
    cases k <;> rfl

/-- Answers that all say "in progress" bring the poll as many exchanges further (R108, R125). -/
theorem runSteps_poll {s : State} {p : Nat} {as : List Answer} {rest : Env} (hb : s.phase = .busy)
    (hs : s.seq = some (.poll p)) (hr : s.resetLine = false) (ht : takeAnswers as.length s.env = some (as, rest))
    (has : ∀ a ∈ as, a.isOk = true ∧ writeInProgress s.cfg (statusByte a) = true) :
    runSteps as.length s = .next { afterOps (List.replicate as.length (statusPoll s.cfg)) as rest s with
      seq := some (.poll (p + as.length)) } := by
  have hrun := run_chain as (pollsFrom_chain s.cfg s.buf (as.length + 1) p 0) rfl rfl hb hr hs ht
    (fun _ a ha => has a (List.mem_of_getElem? ha)) (pollsFrom_getElem? as.length.lt_succ_self)
  rwa [List.map_take, pollsFrom_ops, List.take_replicate, Nat.min_eq_left as.length.le_succ] at hrun

/-- Settles O27: by `runSteps_poll`. -/
theorem statusPollHasNoBound : Obligations.StatusPollHasNoBound := by
  intro s p k as rest hb hs hr ht has
  obtain rfl : as.length = k := takeAnswers_length ht
  exact ⟨_, runSteps_poll hb hs hr ht has, hb, rfl, rfl, rfl, rfl, rfl, afterOps_trace _ as rest s⟩

/-! INIT with an invalid configuration. -/

/-- INIT is let run in UNINIT and in READY (R75). -/
theorem exec_init_runs {s : State} (hp : s.phase = .uninit ∨ s.phase = .ready) :
    exec .init s = .next (runInit (takeWord s)) :=
  hp.elim exec_uninit_init fun h => exec_ready h .init

theorem raiseConfigError_eq (s : State) : raiseConfigError s =
    { s with phase := .uninit, resp := some 0x20000000#32, responsesRev := 0x20000000#32 :: s.responsesRev,
             seq := none } := by
  rw [raiseConfigError, configErrorWord_eq]
  rfl

/-- Settles O18: INIT is let run, and its check of the configuration fails. -/
theorem invalidConfigurationEndsInit : Obligations.InvalidConfigurationEndsInit := by
  intro s hp hv
  have hrun : runInit (takeWord s) = raiseConfigError (takeWord s) := runInit_invalid hv
  rw [exec_init_runs hp, hrun, raiseConfigError_eq]
  rfl

/-! The idle engine. -/

/-- Settles O46: by `step_idle`. -/
theorem idleEngineHoldsItsState : Obligations.IdleEngineHoldsItsState := fun _ => step_idle

end Sys2Proof.Machine
end

section
/-! PROOFS. Reset from any state (R140, R141), and a pulse of UPDATE whose second half is answered Err (R12, R123, R148). -/

namespace Sys2Proof.Machine

/-! Reset. -/

/-- Settles O2: a step with reset is `applyReset`, which writes the state after reset; only reset leaves FAULTED. -/
theorem resetFromAnyState : Obligations.ResetFromAnyState :=
  ⟨fun _ hr => ⟨_, step_reset hr, fun _ => rfl, rfl, rfl, rfl, rfl, levels_get_unknown, rfl, rfl, rfl, rfl, rfl, rfl, rfl,
    rfl⟩, fun _ _ => step_phase_faulted⟩

/-! An interrupted pulse. -/

/-- The position after the first half of a pulse of UPDATE issues the second half (R12). -/
theorem nextPos_pulse {cfg : Config} {buf : Memory} {p : Pos} {sig : Signal} (rx : Byte) (hi : inInit p = false)
    (hsig : sig = .sclk ∨ sig = .gsclk ∨ sig = .latch) (hop : posOp cfg buf p = .pinSet sig .high) :
    ∃ q, nextPos cfg buf rx p = some q ∧ posOp cfg buf q = .pinSet sig .low := by
  have hsignal : (posOp cfg buf p).signal = sig := congrArg Op.signal hop
  cases p with
  | init st => simp [inInit] at hi
  | blankOff | blankOn =>
    rw [posOp, blankSet_signal] at hsignal
    simp [← hsignal] at hsig
  | tick t e =>
    cases e with
    | data => simp [← hsignal, posOp, Op.signal] at hsig
    | sclkHigh | gsclkHigh => exact ⟨_, rfl, congrArg (Op.pinSet · .low) hsignal⟩
    | sclkLow | gsclkLow => simp [posOp] at hop
  | bit k e =>
    cases e with
    | data => simp [← hsignal, posOp, Op.signal] at hsig
    | sclkHigh => exact ⟨_, rfl, congrArg (Op.pinSet · .low) hsignal⟩
    | sclkLow => simp [posOp] at hop
  | latchHigh => exact ⟨_, rfl, congrArg (Op.pinSet · .low) hsignal⟩
  | latchLow | dataLow | wren | frame | poll => simp [posOp, statusPoll] at hop

/-- A step in BUSY answered Ok that is not the last of its command goes on at the next position. -/
theorem step_goes_on {s : State} {p q : Pos} {rx0 rx1 : Byte} {rest : Env} (hr : s.resetLine = false)
    (hb : s.phase = .busy) (hs : s.seq = some p) (ha : nextAnswer s.env = some (.ok rx0 rx1, rest))
    (hn : nextPos s.cfg s.buf rx1 p = some q) :
    step s = .next { observe (posOp s.cfg s.buf p) (.ok rx0 rx1) s with env := rest, seq := some q } := by
  rw [step_answered hr hb hs ha, transact, hn]
  rfl

/-- A step that answers a PinSet of UPDATE with Err leaves its output UNKNOWN, ends the command in READY and issues nothing
after it (R28, R123). -/
theorem step_pinSet_err {s : State} {p : Pos} {sig : Signal} {l : Level} {rest : Env} (hr : s.resetLine = false)
    (hb : s.phase = .busy) (hs : s.seq = some p) (ha : nextAnswer s.env = some (.err, rest)) (hi : inInit p = false)
    (hsig : sig ≠ .bus) (hop : posOp s.cfg s.buf p = .pinSet sig l) :
    ∃ u, step s = .next u ∧ u.lvl.get sig = .unknown ∧ u.phase = .ready ∧ u.seq = none ∧
      u.trace = s.trace ++ [⟨.pinSet sig l, .err⟩] := by
  refine ⟨_, step_answered hr hb hs ha, ?_, ?_, rfl, ?_⟩
  · exact (levelsFollowTheAnswers p .err { s with env := rest } sig hsig).1 l hop
  · simp [transact, hi]
  · rw [transact_trace, hop]
    rfl

/-- Settles O39: the first half leads to the position of the second (`nextPos_pulse`), which is answered Err
(`step_pinSet_err`). -/
theorem interruptedPulseLeavesUnknown : Obligations.InterruptedPulseLeavesUnknown := by
  intro s p sig rx0 rx1 rest hb hr hs hi hop hsig ht
  obtain ⟨mid, ha, ht'⟩ := takeAnswers_succ ht
  obtain ⟨last, ha', -⟩ := takeAnswers_succ ht'
  obtain ⟨q, hn, hlow⟩ := nextPos_pulse rx1 hi hsig hop
  have hbus : sig ≠ .bus := by
    rintro rfl
    simp at hsig
  have hfirst := step_goes_on hr hb hs ha hn
  rw [hop] at hfirst
  obtain ⟨u, hsecond, hlvl, hphase, hseq, htrace⟩ := step_pinSet_err
    (s := { observe (.pinSet sig .high) (.ok rx0 rx1) s with env := mid, seq := some q })
    hr hb rfl ha' (nextPos_notInit hi hn) hbus hlow
  refine ⟨u, (runSteps_succ hfirst).trans (runSteps_succ hsecond), hlvl, hphase, hseq, htrace.trans ?_⟩
  have hhigh := observe_trace (.pinSet sig .high) (.ok rx0 rx1) s
  exact (congrArg (· ++ _) hhigh).trans (List.append_assoc ..)

end Sys2Proof.Machine
end
